-- ==== Sys2Proof/Word.lean ====
section
/-! DEFINITION. The word types of the machine: the byte of registers, memory cells and operands, the program
counter's word, and the index of a general register (spec/00_scope.md R5, R6, R7). -/

namespace Sys2Proof

/-- `u8` of spec/00_scope.md R7: every register and memory cell, unsigned, 0 to 255. -/
abbrev Byte := BitVec 8

/-- The program counter's word, 9 bits (spec/10_state.md R14, decision D2). DESIGN CHOICE, log 3. -/
abbrev PcWord := BitVec 9

/-- The index of a general register, 0 to 7 (spec/10_state.md R10). -/
abbrev RegIndex := Fin 8

end Sys2Proof
end

