-- ==== Sys2Proof/Config.lean ====
section
/-! DEFINITION. The parameters of the machine: those the source fixes (spec/00_scope.md R5) and the two reset values
the spec chooses where its source is silent (R6). There is no free value: the spec decides every open point. -/

namespace Sys2Proof.Config

/-- `NREG`: the number of general registers (R5). -/
def numRegs : Nat := 8

/-- `MEMSIZE`: the number of memory cells, addressed 0 to 255 (R5). -/
def memSize : Nat := 256

/-- `SP_INDEX`: the register used as the stack pointer (R5, R12). -/
def spIndex : RegIndex := 7

/-- `SP_RESET`: the stack pointer after reset (R5, R26, conflict C1). -/
def spReset : Byte := 0xF4

/-- `PC_RESET` (R5). -/
def pcReset : PcWord := 0

/-- `LOAD_BASE`: the address of the first byte *load* writes (R5). -/
def loadBase : Nat := 0

/-- `RESET_REG`: registers 0 to 6 after reset (R6, decision D3). DESIGN CHOICE, unsafe, log 1. -/
def resetReg : Byte := 0x00

/-- `RESET_MEM`: what a cell holds after reset, and so what an address the memory does not list reads as
(R6, decision D4). DESIGN CHOICE, unsafe, log 2. -/
def resetMem : Byte := 0x00

end Sys2Proof.Config
end

