-- ==== Sys2Proof/Machine/State.lean ====
section
/-! DEFINITION. The state of the machine, all that spec/10_state.md R10 to R28 give it, as plain data; the reasons a
step stops; the state after reset (R26, R180). -/

namespace Sys2Proof.Machine

/-- Where the run is (R22, decision D5). -/
inductive Status where
  /-- After reset: no *run* yet. -/
  | idle
  /-- The only status in which a step happens. -/
  | running
  /-- Stopped by `HALT`; left only by reset. -/
  | halted
  /-- Stopped by a fault; left only by reset. -/
  | faulted
  deriving DecidableEq, Repr

/-- The three fault causes; the names are the codes (R23, R150, decision D8). -/
inductive FaultCause where
  | unrecognizedInstruction
  | outOfBoundsAccess
  | unsupportedALUOperation
  deriving DecidableEq, Repr

/-- `fault.info` (R23, R150): the offending opcode byte, address or register index, each a number, or the ALU
operation selector, which the source calls an operation name (R92). -/
inductive FaultInfo where
  | number (n : Nat)
  | selector (name : String)
  deriving DecidableEq, Repr

/-- The argument of `raise` (R7, R155): a cause and its info. -/
structure Trap where
  cause : FaultCause
  info : FaultInfo
  deriving DecidableEq, Repr

/-- The fault record `(cause, pc, info)` of R23. -/
structure FaultRecord where
  cause : FaultCause
  pc : PcWord
  info : FaultInfo
  deriving DecidableEq, Repr

/-- The flags register: three Booleans, no packed byte (R17, decision D18). -/
structure Flags where
  E : Bool
  L : Bool
  G : Bool
  deriving DecidableEq, Repr

/-- Memory: the cells that differ from `Config.resetMem`, as (address, byte) pairs, addresses strictly rising
(`Memory.wf` in Ops.lean). -/
abbrev Memory := List Host.Cell

/-- Why no step happens. A fault of the MACHINE (R150) is none of these: it is taken, as a next state whose `status`
is `faulted` (R155). -/
inductive Fault where
  /-- `step`, with `status` IDLE: a step is defined only when RUNNING and only the host's *run* starts one (R70, R71).
  A stuck state; safe. -/
  | notStarted
  /-- `step`, with `status` HALTED: final until reset (R22, R82). A stuck state; safe. -/
  | halted
  /-- `step`, with `status` FAULTED: final until reset (R22, R156). A stuck state; safe. -/
  | faulted
  deriving DecidableEq, Repr

/-- What is turned away by name. -/
inductive Refusal where
  /-- An arm of `exec` without a meaning; no arm has it. Safe. -/
  | notModelled (mnemonic : String)
  /-- The host's *load* while RUNNING (R40). Safe. -/
  | loadWhileRunning
  /-- The host's *load* of more than 256 bytes, refused whole (R40, decision D17). Safe. -/
  | loadTooLong
  /-- The host's *inspect* while RUNNING (R167). Safe. -/
  | inspectWhileRunning
  /-- The host's *inspect* of a register index above 7 or a memory address above 255 (R166). Safe. -/
  | inspectOutOfRange
  deriving DecidableEq, Repr

/-- The whole state of the machine (spec/10_state.md, R10 to R28). -/
structure State where
  /-- `x[0..7]`; `x[7]` is `sp`, the same storage (R10, R12). -/
  regs : Vector Byte 8
  /-- The program counter (R14). -/
  pc : PcWord
  /-- The flags (R17). -/
  fl : Flags
  /-- `M[0..255]` (R20). -/
  mem : Memory
  /-- The run status (R22). -/
  status : Status
  /-- The fault record, none until a fault is raised (R23). -/
  fault : Option FaultRecord
  /-- The values emitted since reset, oldest first (R24). -/
  out : List Byte
  deriving DecidableEq, Repr

/-- The three outcomes of an instruction or a step. -/
abbrev Outcome := Host.Outcome State Fault Refusal

/-- The registers after reset: `RESET_REG` in 0 to 6, 0xF4 in 7 (R26). -/
def resetRegs : Vector Byte 8 :=
  #v[Config.resetReg, Config.resetReg, Config.resetReg, Config.resetReg,
     Config.resetReg, Config.resetReg, Config.resetReg, Config.spReset]

/-- The machine right after reset, before any *load* (R26, R180). -/
def State.reset : State where
  regs := resetRegs
  pc := Config.pcReset
  fl := { E := false, L := false, G := false }
  mem := []
  status := .idle
  fault := none
  out := []

end Sys2Proof.Machine
end

