-- ==== Sys2Proof/Machine/Ops.lean ====
section
/-! DEFINITION. The named operations over memory, registers, program counter, output and status, and TAKING A FAULT
(`State.raise`, R155) as one shared operation. There is no return from a fault to stand beside it: spec/60_exceptions.md
R156, "There is no return from a fault and no instruction to perform one". -/

namespace Sys2Proof.Machine

/-! ### Memory (spec/20_memory.md) -/

/-- The canonical form: addresses strictly rising and below 256, no entry equal to what an unlisted address reads as. -/
abbrev Memory.wf (m : Memory) : Prop :=
  m.Pairwise (fun p q => p.1 < q.1) ∧ ∀ c ∈ m, c.1 < Config.memSize ∧ c.2 ≠ Config.resetMem

/-- The byte at an address; an unlisted address reads as `Config.resetMem`. -/
def Memory.read : Memory → Nat → Byte
  | [], _ => Config.resetMem
  | (k, b) :: m, a => if a = k then b else Memory.read m a

/-- One cell written, the canonical form kept: writing what an unlisted address reads as removes the entry. -/
def Memory.write : Memory → Nat → Byte → Memory
  | [], a, v => if v = Config.resetMem then [] else [(a, v)]
  | (k, b) :: m, a, v =>
    if a < k then
      if v = Config.resetMem then (k, b) :: m else (a, v) :: (k, b) :: m
    else if a = k then
      if v = Config.resetMem then m else (a, v) :: m
    else
      (k, b) :: Memory.write m a v

/-- Bytes written one after the other from an address up. -/
def Memory.writeFrom : Memory → Nat → List Byte → Memory
  | m, _, [] => m
  | m, a, b :: bs => Memory.writeFrom (m.write a b) (a + 1) bs

/-! ### Faults as traps (R150) -/

/-- `UnrecognizedInstruction(opcode)`. -/
def Trap.unrecognized (opcode : Byte) : Trap := ⟨.unrecognizedInstruction, .number opcode.toNat⟩

/-- `OutOfBoundsAccess(address or index)`. -/
def Trap.outOfBounds (n : Nat) : Trap := ⟨.outOfBoundsAccess, .number n⟩

/-- `UnsupportedALUOperation(selector)`. -/
def Trap.unsupportedALU (name : String) : Trap := ⟨.unsupportedALUOperation, .selector name⟩

/-- `raise` (R155, decision D7): the fault record takes the cause, the pc at the start of the step and the info, the
status becomes FAULTED, and nothing else changes. DESIGN CHOICE of the spec, log 7. -/
def State.raise (s : State) (t : Trap) : State :=
  { s with status := .faulted, fault := some ⟨t.cause, s.pc, t.info⟩ }

/-- How an instruction ends: its result, or the fault taken from the state `s` the instruction STARTED in, so that a
faulting instruction has no effect of its own (R155). -/
def State.conclude (s : State) : Except Trap State → Outcome
  | .ok t => .next t
  | .error t => .next (s.raise t)

/-! ### The access primitives (R31, R32) -/

/-- `MemRead(addr, 1)`: above 255 raises, otherwise the cell. -/
def State.memRead (s : State) (addr : Nat) : Except Trap Byte :=
  if addr > 255 then .error (Trap.outOfBounds addr) else .ok (s.mem.read addr)

/-- The state with its memory replaced. -/
def State.setMem (s : State) (m : Memory) : State := { s with mem := m }

/-- `MemWrite(addr, 1, v)`: above 255 raises, otherwise only that cell changes. -/
def State.memWrite (s : State) (addr : Nat) (v : Byte) : Except Trap State :=
  if addr > 255 then .error (Trap.outOfBounds addr) else .ok (s.setMem (s.mem.write addr v))

/-! ### Registers (R10, R12) -/

/-- Read `x[i]`. -/
def State.reg (s : State) (i : RegIndex) : Byte := s.regs[i]

/-- Write `x[i]`. -/
def State.setReg (s : State) (i : RegIndex) (v : Byte) : State := { s with regs := s.regs.set i v }

/-- `sp` is another name for `x[7]`, never a separate register (R12). -/
def State.sp (s : State) : Byte := s.reg Config.spIndex

/-- Write `sp`, that is `x[7]`. -/
def State.setSp (s : State) (v : Byte) : State := s.setReg Config.spIndex v

/-! ### Program counter (R15, R16, R74) -/

/-- `pc <- target`. -/
def State.setPc (s : State) (target : PcWord) : State := { s with pc := target }

/-- `pc <- pc + k`: not reduced modulo 256; from a pc of at most 255 it gives at most 258 and never wraps. -/
def State.advance (s : State) (k : Nat) : State := s.setPc (s.pc + BitVec.ofNat 9 k)

/-- `pc <- v` for a byte `v`, widened with zeros: a jump, call or return target is 0 to 255 (R16, R124). -/
def State.jumpTo (s : State) (v : Byte) : State := s.setPc (v.setWidth 9)

/-! ### Flags, output, status -/

/-- Write all three flags at once (R18). -/
def State.setFlags (s : State) (f : Flags) : State := { s with fl := f }

/-- `emit(v)`: `out <- out ++ [v]` (R7, R24). -/
def State.emit (s : State) (v : Byte) : State := { s with out := s.out ++ [v] }

/-- `status <- HALTED` (R82). -/
def State.halt (s : State) : State := { s with status := .halted }

/-- `status <- RUNNING` (R70). -/
def State.start (s : State) : State := { s with status := .running }

end Sys2Proof.Machine
end

