-- ==== Sys2Proof/Machine/Flags.lean ====
section
/-! DEFINITION. The one flag computation, the three-way comparison of `CMP` (spec/42_alu.md R96, R97), and the one
condition an instruction tests, E (spec/45_jumps.md R120). -/

namespace Sys2Proof.Machine

/-- E, L, G of two values, compared as unsigned numbers, the first against the second (R96, R97, decision D16).
DESIGN CHOICE of the spec for the direction of L and G, log 16. -/
def compareFlags (va vb : Byte) : Flags where
  E := decide (va.toNat = vb.toNat)
  L := decide (va.toNat < vb.toNat)
  G := decide (va.toNat > vb.toNat)

/-- The condition of `JEQ`; `JNE` tests its negation (R120, R122, R123). -/
def State.equalFlag (s : State) : Bool := s.fl.E

end Sys2Proof.Machine
end

