-- ==== Sys2Proof/Machine/Alu.lean ====
section
/-! DEFINITION. The ALU block (spec/42_alu.md R90 to R92): `ADD` takes register indices, `CMP` takes two values, any
other operation name raises `UnsupportedALUOperation`. Decisions D21 and D22, log 20. -/

namespace Sys2Proof.Machine

/-- What is given to the ALU: an operation with the operands of ITS type (R91), or another operation name (R92). -/
inductive AluRequest where
  | add (a b : RegIndex)
  | cmp (va vb : Byte)
  | other (name : String)
  deriving DecidableEq, Repr

/-- `alu(operation, operand_a, operand_b)`: `ADD` writes the first register with the sum modulo 256 and no flag,
`CMP` writes the three flags and no register (R90, R93). -/
def alu (q : AluRequest) (s : State) : Except Trap State :=
  match q with
  | .add a b => .ok (s.setReg a (s.reg a + s.reg b))
  | .cmp va vb => .ok (s.setFlags (compareFlags va vb))
  | .other name => .error (Trap.unsupportedALU name)

end Sys2Proof.Machine
end

