-- ==== Sys2Proof/Machine/Operands.lean ====
section
/-! DEFINITION. The operand forms: the register operand with its check (spec/30_encoding.md R53, phase 4 of
spec/40_execution_cycle.md R71) and the immediate (R54). There are no others (R54). -/

namespace Sys2Proof.Machine

/-- A register operand byte as a register index: the WHOLE byte counts, above 7 raises `OutOfBoundsAccess(op)`, nothing
is masked (R53, decision D9). DESIGN CHOICE of the spec, log 9. -/
def regOperand (op : Byte) : Except Trap RegIndex :=
  if h : op.toNat < 8 then .ok ⟨op.toNat, h⟩ else .error (Trap.outOfBounds op.toNat)

/-- Two register operands, `op1` checked before `op2` (R53, R153). -/
def regOperands2 (op1 op2 : Byte) : Except Trap (RegIndex × RegIndex) := do
  let a ← regOperand op1
  let b ← regOperand op2
  .ok (a, b)

/-- The immediate of `LDI`: all 8 bits, unsigned, no extension, any value legal (R54). -/
def immediate (op : Byte) : Byte := op

end Sys2Proof.Machine
end

