-- ==== Sys2Proof/Machine/Arithmetic.lean ====
section
/-! DEFINITION. `MUL`, `ADD`, `CMP` (spec/42_alu.md). -/

namespace Sys2Proof.Machine

/-- `MUL a, b` (R94): `x[a] <- (x[a] * x[b]) mod 256`, computed outside the ALU (R90, decision D22). -/
def execMul (a b : Byte) (s : State) : Outcome :=
  s.conclude do
    let (i, j) ← regOperands2 a b
    .ok ((s.setReg i (s.reg i * s.reg j)).advance 3)

/-- `ADD a, b` (R95): the ALU's `ADD` on the two register indices (R91). -/
def execAdd (a b : Byte) (s : State) : Outcome :=
  s.conclude do
    let (i, j) ← regOperands2 a b
    let t ← alu (.add i j) s
    .ok (t.advance 3)

/-- `CMP a, b` (R96): the ALU's `CMP` on the two VALUES, read by the execute unit (R91). -/
def execCmp (a b : Byte) (s : State) : Outcome :=
  s.conclude do
    let (i, j) ← regOperands2 a b
    let t ← alu (.cmp (s.reg i) (s.reg j)) s
    .ok (t.advance 3)

end Sys2Proof.Machine
end

