-- ==== Sys2Proof/Machine/StackPointer.lean ====
section
/-! DEFINITION. The stack pointer logic that `PUSH`, `POP`, `CALL` and `RET` share (spec/43_stack.md R100): a full
descending stack in the one memory, no bound, the pointer wrapping modulo 256. -/

namespace Sys2Proof.Machine

/-- `dec`: `sp <- (sp - 1) mod 256`; 0 becomes 255. -/
def State.decSp (s : State) : State := s.setSp (s.sp - 1)

/-- `inc`: `sp <- (sp + 1) mod 256`; 255 becomes 0. -/
def State.incSp (s : State) : State := s.setSp (s.sp + 1)

/-- A push: decrement, then store at the new `sp`. The value is read AFTER the decrement (R101, decision D15). -/
def State.pushWith (s : State) (value : State → Byte) : Except Trap State :=
  s.decSp.memWrite s.decSp.sp.toNat (value s.decSp)

/-- A pop: the byte at the old `sp`, and the state with `sp` incremented (R102, R112). -/
def State.popByte (s : State) : Except Trap (Byte × State) := do
  let v ← s.memRead s.sp.toNat
  .ok (v, s.incSp)

end Sys2Proof.Machine
end

