-- ==== Sys2Proof/Machine/CallReturn.lean ====
section
/-! DEFINITION. `CALL` and `RET` (spec/44_call_return.md). -/

namespace Sys2Proof.Machine

/-- The return address of a `CALL` at `pc`, the address of the next instruction, as the byte a cell can hold: `pc + 2`
above 255 raises and is never wrapped (R111, decision D11). DESIGN CHOICE of the spec, log 11. -/
def State.returnAddress (s : State) : Except Trap Byte :=
  if s.pc.toNat + 2 > 255 then .error (Trap.outOfBounds (s.pc.toNat + 2))
  else .ok (BitVec.ofNat 8 (s.pc.toNat + 2))

/-- `CALL r` (R111): push the return address, then jump to `x[r]`, read after the decrement, so `CALL R7` jumps to the
decremented `sp` (decision D15). DESIGN CHOICE of the spec, log 15. -/
def execCall (r : Byte) (s : State) : Outcome :=
  s.conclude do
    let i ← regOperand r
    let back ← s.returnAddress
    let t ← s.pushWith (fun _ => back)
    .ok (t.jumpTo (t.reg i))

/-- `RET` (R112): the popped byte becomes the `pc`. -/
def execRet (s : State) : Outcome :=
  s.conclude do
    let (v, t) ← s.popByte
    .ok (t.jumpTo v)

end Sys2Proof.Machine
end

