-- ==== Sys2Proof/Machine/Jumps.lean ====
section
/-! DEFINITION. `JMP`, `JEQ`, `JNE` (spec/45_jumps.md). The operand is checked whether or not the jump is taken
(decision D13, log 13). -/

namespace Sys2Proof.Machine

/-- Jump to `x[r]` where the condition holds, else fall through to the next instruction, two bytes on (R120). -/
def State.jumpIf (s : State) (taken : Bool) (r : Byte) : Except Trap State := do
  let i ← regOperand r
  .ok (if taken then s.jumpTo (s.reg i) else s.advance 2)

/-- `JMP r` (R121). -/
def execJmp (r : Byte) (s : State) : Outcome := s.conclude (s.jumpIf true r)

/-- `JEQ r` (R122): taken when E is set. -/
def execJeq (r : Byte) (s : State) : Outcome := s.conclude (s.jumpIf s.equalFlag r)

/-- `JNE r` (R123): taken when E is clear. -/
def execJne (r : Byte) (s : State) : Outcome := s.conclude (s.jumpIf (!s.equalFlag) r)

end Sys2Proof.Machine
end

