-- ==== Sys2Proof/Machine/LoadPrintHalt.lean ====
section
/-! DEFINITION. `LDI`, `PRN`, `HALT` (spec/41_load_print_halt.md). Each meaning is phases 4 and 5 of
spec/40_execution_cycle.md R71: the operand check, then the rule's statements in the order written. -/

namespace Sys2Proof.Machine

/-- `LDI r, v` (R80): `x[r] <- v`. -/
def execLdi (r v : Byte) (s : State) : Outcome :=
  s.conclude do
    let i ← regOperand r
    .ok ((s.setReg i (immediate v)).advance 3)

/-- `PRN r` (R81): `emit(x[r])`. -/
def execPrn (r : Byte) (s : State) : Outcome :=
  s.conclude do
    let i ← regOperand r
    .ok ((s.emit (s.reg i)).advance 2)

/-- `HALT` (R82): `status <- HALTED`; `pc` stays (decision D6). DESIGN CHOICE of the spec, log 6. -/
def execHalt (s : State) : Outcome := s.conclude (.ok s.halt)

end Sys2Proof.Machine
end

