-- ==== Sys2Proof/Machine/Stack.lean ====
section
/-! DEFINITION. `PUSH` and `POP` (spec/43_stack.md). -/

namespace Sys2Proof.Machine

/-- `PUSH r` (R101): the register is read after the decrement, so `PUSH R7` stores the decremented `sp`
(decision D15). DESIGN CHOICE of the spec, log 15. -/
def execPush (r : Byte) (s : State) : Outcome :=
  s.conclude do
    let i ← regOperand r
    let t ← s.pushWith (fun s₁ => s₁.reg i)
    .ok (t.advance 2)

/-- `POP r` (R102): read at the old `sp`, increment, then write the register, so `POP R7` ends with the popped byte in
`sp` (decision D14). DESIGN CHOICE of the spec, log 14. -/
def execPop (r : Byte) (s : State) : Outcome :=
  s.conclude do
    let i ← regOperand r
    let (v, t) ← s.popByte
    .ok ((t.setReg i v).advance 2)

end Sys2Proof.Machine
end

