-- ==== Sys2Proof/Syntax.lean ====
section
/-! DEFINITION. The 13 instructions of spec/30_encoding.md R55, one constructor per row of spec/opcode_table.json.
An operand is the whole operand BYTE (R50, R53, R54); that a register operand byte is 0 to 7 is the check of
WellFormed.lean here and of `Machine.regOperand` in the machine. -/

namespace Sys2Proof

inductive Instr where
  /-- `LDI r, v`: load immediate (R80). -/
  | ldi (r v : Byte)
  /-- `PRN r`: print (R81). -/
  | prn (r : Byte)
  /-- `HALT`: stop execution (R82). -/
  | halt
  /-- `MUL a, b`: multiply (R94). -/
  | mul (a b : Byte)
  /-- `ADD a, b`: add (R95). -/
  | add (a b : Byte)
  /-- `CMP a, b`: compare (R96). -/
  | cmp (a b : Byte)
  /-- `PUSH r`: push a register (R101). -/
  | push (r : Byte)
  /-- `POP r`: pop into a register (R102). -/
  | pop (r : Byte)
  /-- `CALL r`: call the subroutine whose address is in a register (R111). -/
  | call (r : Byte)
  /-- `RET`: return from subroutine (R112). -/
  | ret
  /-- `JMP r`: jump (R121). -/
  | jmp (r : Byte)
  /-- `JEQ r`: jump if equal (R122). -/
  | jeq (r : Byte)
  /-- `JNE r`: jump if not equal (R123). -/
  | jne (r : Byte)
  deriving DecidableEq, Repr

end Sys2Proof
end

