-- ==== Sys2Proof/Decode.lean ====
section
/-! DEFINITION. Decoding and encoding (spec/30_encoding.md R50 to R57, spec/40_execution_cycle.md R71 phases 2 and 3):
dispatch on the exact value of the opcode byte, then the operand bytes the format has. One decoder, over any way of
reading the instruction's bytes: the machine gives it `MemRead`, `decode` gives it a list. -/

namespace Sys2Proof

/-- The four formats of R50, each with the instruction it makes of its operand bytes. -/
inductive Format where
  /-- Format Z: the opcode byte alone. -/
  | z (i : Instr)
  /-- Format R: one register operand, `op1`. -/
  | r (make : Byte → Instr)
  /-- Format RR: two register operands, `op1` and `op2`. -/
  | rr (make : Byte → Byte → Instr)
  /-- Format RI: a register operand `op1` and an immediate `op2`. -/
  | ri (make : Byte → Byte → Instr)

/-- The opcode map of R55, row by row in the source's order. -/
def opcodeTable : List (Byte × Format) :=
  [ (0b10000010, .ri .ldi),
    (0b01000111, .r .prn),
    (0b00000001, .z .halt),
    (0b10100010, .rr .mul),
    (0b10100000, .rr .add),
    (0b10100111, .rr .cmp),
    (0b01000101, .r .push),
    (0b01000110, .r .pop),
    (0b01010000, .r .call),
    (0b00010001, .z .ret),
    (0b01010100, .r .jmp),
    (0b01010101, .r .jeq),
    (0b01010110, .r .jne) ]

/-- Dispatch on all 8 bits of the opcode byte (R51, R55, R73): no bit of it is decoded by itself (R56). -/
def opcodeMap (b : Byte) : Option Format := opcodeTable.lookup b

/-- The operand count of a format, the third column of R55. -/
def Format.operandCount : Format → Nat
  | .z _ => 0
  | .r _ => 1
  | .rr _ => 2
  | .ri _ => 2

/-- Phases 1 to 3 of R71 over any reader: `read k` is the byte `k` places after the opcode byte. The opcode is read
first, an unknown one is answered before any operand byte is read (R57), and only the operand bytes the format has
are read, in address order (R52). -/
def decodeFrom {ε : Type} (read : Nat → Except ε Byte) (unrecognized : Byte → ε) : Except ε Instr := do
  let ir ← read 0
  match opcodeMap ir with
  | none => .error (unrecognized ir)
  | some (.z i) => .ok i
  | some (.r make) => do
    let op1 ← read 1
    .ok (make op1)
  | some (.rr make) => do
    let op1 ← read 1
    let op2 ← read 2
    .ok (make op1 op2)
  | some (.ri make) => do
    let op1 ← read 1
    let op2 ← read 2
    .ok (make op1 op2)

/-- Why a list of bytes decodes to no instruction. -/
inductive DecodeError where
  /-- The opcode byte is none of the 13 values of R55 (R57). -/
  | unrecognized (opcode : Byte)
  /-- The byte at this offset from the opcode (0, 1 or 2) lies beyond the bytes given. -/
  | missing (offset : Nat)
  deriving DecidableEq, Repr

/-- Byte `k` of a list of bytes, or the error that it is missing. -/
def byteOf (bytes : List Byte) (k : Nat) : Except DecodeError Byte :=
  match bytes[k]? with
  | some b => .ok b
  | none => .error (.missing k)

/-- The instruction at the front of a list of bytes. Total: any bytes decode or are rejected by name. How many bytes
it took is `Instr.width`, told by the opcode byte alone (R51). -/
def decode (bytes : List Byte) : Except DecodeError Instr := decodeFrom (byteOf bytes) .unrecognized

/-- The opcode byte of each instruction (R55). -/
def Instr.opcode : Instr → Byte
  | .ldi _ _ => 0x82
  | .prn _ => 0x47
  | .halt => 0x01
  | .mul _ _ => 0xA2
  | .add _ _ => 0xA0
  | .cmp _ _ => 0xA7
  | .push _ => 0x45
  | .pop _ => 0x46
  | .call _ => 0x50
  | .ret => 0x11
  | .jmp _ => 0x54
  | .jeq _ => 0x55
  | .jne _ => 0x56

/-- The operand bytes of each instruction in address order (R50). -/
def Instr.operandBytes : Instr → List Byte
  | .ldi r v => [r, v]
  | .prn r => [r]
  | .halt => []
  | .mul a b => [a, b]
  | .add a b => [a, b]
  | .cmp a b => [a, b]
  | .push r => [r]
  | .pop r => [r]
  | .call r => [r]
  | .ret => []
  | .jmp r => [r]
  | .jeq r => [r]
  | .jne r => [r]

/-- The width in bytes: one more than the operand count (R50). -/
def Instr.width (i : Instr) : Nat := 1 + i.operandBytes.length

/-- The bytes of an instruction, the opcode byte at the lowest address (R33, R50). -/
def encode (i : Instr) : List Byte := i.opcode :: i.operandBytes

/-- The three bytes of an instruction whose bits are `w`, numbered as spec/opcode_table.json numbers them: byte `k` is
bits `8k+7` to `8k`; every bit above `nbits` is 0. -/
def tableWordBytes (nbits w : Nat) : List Byte :=
  [0, 1, 2].map fun k => BitVec.ofNat 8 (w % 2 ^ nbits / 256 ^ k)

/-- The instruction the decoder reads from such a word. -/
def decodeTableWord (nbits w : Nat) : Option Instr :=
  match decode (tableWordBytes nbits w) with
  | .ok i => some i
  | .error _ => none

end Sys2Proof
end

