-- ==== Sys2Proof/Machine/Fetch.lean ====
section
/-! DEFINITION. Fetch, decode and operand fetch, phases 1 to 3 of spec/40_execution_cycle.md R71, and the placing of an
instruction's bytes where the next fetch reads them. -/

namespace Sys2Proof.Machine

/-- The instruction at `pc`: the one decoder, reading `MemRead(pc + k)` with the addresses not wrapped (R52, R72, R73,
decision D10). It reads memory and changes nothing. -/
def State.fetch (s : State) : Except Trap Instr :=
  decodeFrom (fun k => s.memRead (s.pc.toNat + k)) Trap.unrecognized

/-- Bytes stored from the address `a` up, those above 255 left out. -/
def State.placeBytes (s : State) (a : Nat) (bytes : List Byte) : State :=
  s.setMem (s.mem.writeFrom a (bytes.take (Config.memSize - a)))

/-- The state ready to run the instruction whose bytes are given as its next step: the bytes stored from `pc` up and
the status RUNNING, since no step happens otherwise (R71). It stands for the host's *load* and *run* (log 5). -/
def State.readyWith (s : State) (bytes : List Byte) : State := (s.placeBytes s.pc.toNat bytes).start

end Sys2Proof.Machine
end

