-- ==== Sys2Proof/Machine/Step.lean ====
section
/-! DEFINITION. One step of the machine (spec/40_execution_cycle.md R71). -/

namespace Sys2Proof.Machine

/-- One instruction, or one fault taken (R71). It happens only while RUNNING (R22); in the other three statuses no step
exists and the machine is stuck, each under its own name (log 4). -/
def step (s : State) : Host.Outcome State Fault Refusal :=
  match s.status with
  | .idle => .fault .notStarted
  | .halted => .fault .halted
  | .faulted => .fault .faulted
  | .running =>
    match s.fetch with
    | .ok i => exec i s
    | .error t => .next (s.raise t)

/-- The instruction whose bits are `w` stored where the next fetch reads, and the machine RUNNING (log 5). -/
def State.withFetchWord (s : State) (nbits w : Nat) : State := s.readyWith (tableWordBytes nbits w)

end Sys2Proof.Machine
end

