-- ==== Sys2Proof/Machine/HostInterface.lean ====
section
/-! DEFINITION. The host's transactions, each atomic and between steps (spec/60_exceptions.md R167, decision D1): reset,
*load*, *run* (its start; the loop of steps is Run.lean) and *inspect*. -/

namespace Sys2Proof.Machine

/-- reset, allowed in any status: everything to the reset values (R180). -/
def State.hostReset (_ : State) : State := State.reset

/-- *load*: not while RUNNING; more than 256 bytes refused whole; otherwise the bytes from address 0 up and nothing else
changed (R40, decision D17). DESIGN CHOICE of the spec, log 17. -/
def State.hostLoad (s : State) (bytes : List Byte) : Outcome :=
  if s.status = .running then .refused .loadWhileRunning
  else if bytes.length > Config.memSize then .refused .loadTooLong
  else .next (s.setMem (s.mem.writeFrom Config.loadBase bytes))

/-- The start of *run*: IDLE becomes RUNNING, any other status stays (R70, decision D5). -/
def State.hostRun (s : State) : State := if s.status = .idle then s.start else s

/-- What *inspect* may ask for (R166). -/
inductive Query where
  | reg (i : Nat)
  | pc
  | flagE
  | flagL
  | flagG
  | mem (a : Nat)
  | status
  | fault
  | out
  deriving DecidableEq, Repr

/-- What *inspect* answers. -/
inductive Answer where
  | byte (v : Byte)
  | pc (v : PcWord)
  | flag (b : Bool)
  | status (t : Status)
  | fault (f : Option FaultRecord)
  | out (vs : List Byte)
  deriving DecidableEq, Repr

/-- *inspect*: read-only; not while RUNNING; a register index above 7 or an address above 255 is refused
(R166, R167). -/
def State.inspect (s : State) (q : Query) : Except Refusal Answer :=
  if s.status = .running then .error .inspectWhileRunning
  else
    match q with
    | .reg i => if h : i < 8 then .ok (.byte (s.reg ⟨i, h⟩)) else .error .inspectOutOfRange
    | .pc => .ok (.pc s.pc)
    | .flagE => .ok (.flag s.fl.E)
    | .flagL => .ok (.flag s.fl.L)
    | .flagG => .ok (.flag s.fl.G)
    | .mem a => if a < Config.memSize then .ok (.byte (s.mem.read a)) else .error .inspectOutOfRange
    | .status => .ok (.status s.status)
    | .fault => .ok (.fault s.fault)
    | .out => .ok (.out s.out)

end Sys2Proof.Machine
end

