-- ==== Sys2Proof/Machine/Run.lean ====
section
/-! DEFINITION. The *run* loop (spec/40_execution_cycle.md R70): steps while RUNNING. A run need not end (R75), so the
loop is given a bound on its steps; a state still RUNNING at the bound has not ended. -/

namespace Sys2Proof.Machine

/-- At most `n` turns of `while status = RUNNING: step()`. -/
def State.runLoop : Nat → State → State
  | 0, s => s
  | n + 1, s =>
    match s.status with
    | .running =>
      match step s with
      | .next t => State.runLoop n t
      | .fault _ => s
      | .refused _ => s
    | .idle => s
    | .halted => s
    | .faulted => s

/-- *run*, followed for at most `n` steps (R70). -/
def State.runFor (n : Nat) (s : State) : State := s.hostRun.runLoop n

end Sys2Proof.Machine
end

