-- ==== Sys2Proof/WellFormed.lean ====
section
/-! DEFINITION. Which instructions are well formed: every register operand byte is a register index, 0 to 7
(spec/30_encoding.md R53, R58). An immediate is never checked (R54). -/

namespace Sys2Proof

/-- A register operand byte is legal when the WHOLE byte is 0 to 7 (R53). -/
def isRegByte (b : Byte) : Bool := decide (b.toNat < Config.numRegs)

/-- The register operand bytes of an instruction, in operand order (R50, R55). -/
def Instr.regOperands : Instr → List Byte
  | .ldi r _ => [r]
  | .prn r => [r]
  | .halt => []
  | .mul a b => [a, b]
  | .add a b => [a, b]
  | .cmp a b => [a, b]
  | .push r => [r]
  | .pop r => [r]
  | .call r => [r]
  | .ret => []
  | .jmp r => [r]
  | .jeq r => [r]
  | .jne r => [r]

/-- An instruction is well formed when each of its register operand bytes is legal. -/
def Instr.wellFormed (i : Instr) : Bool := i.regOperands.all isRegByte

end Sys2Proof
end

