-- ==== Sys2Proof/Safety.lean ====
section
/-! DEFINITION. What claims about the machine are stated in: its invariant, the bytes at the program counter, and the
relations "same memory" and "same registers but". -/

namespace Sys2Proof.Machine

/-- At most one flag is set: the reachable values of (E, L, G) (R17, R19). -/
def Flags.atMostOne (f : Flags) : Prop := ¬(f.E ∧ f.L) ∧ ¬(f.E ∧ f.G) ∧ ¬(f.L ∧ f.G)

/-- Exactly one flag is set (R19). -/
def Flags.exactlyOne (f : Flags) : Prop := f.atMostOne ∧ (f.E ∨ f.L ∨ f.G)

/-- The invariant of the machine. -/
structure State.Inv (s : State) : Prop where
  /-- Memory keeps its canonical form, every listed address below 256 (R20). -/
  mem_wf : s.mem.wf
  /-- `pc` is 0 to 256 (R16). -/
  pc_le : s.pc.toNat ≤ 256
  /-- At most one flag is set (R19). -/
  flags : s.fl.atMostOne
  /-- There is a fault record exactly when `status` is FAULTED (R23). -/
  fault_iff : s.fault.isSome ↔ s.status = .faulted
  /-- A fault record's pc is the machine's: `pc` stays at the faulting instruction (R155). -/
  fault_pc : ∀ f ∈ s.fault, f.pc = s.pc
  /-- No recorded fault is the ALU's (R92). -/
  fault_cause : ∀ f ∈ s.fault, f.cause ≠ .unsupportedALUOperation

/-- The bytes from `pc` to the end of memory, where an instruction is read from; none when `pc` is above 255. -/
def State.bytesAtPc (s : State) : List Byte :=
  (List.range (Config.memSize - s.pc.toNat)).map fun k => s.mem.read (s.pc.toNat + k)

/-- Every byte of memory reads the same. -/
def State.SameMemory (s t : State) : Prop := ∀ a, t.mem.read a = s.mem.read a

/-- Every byte of memory outside the one cell `a` reads the same. -/
def State.SameMemoryBut (a : Nat) (s t : State) : Prop := ∀ b, b ≠ a → t.mem.read b = s.mem.read b

/-- Every register outside the list reads the same. -/
def State.SameRegsBut (is : List RegIndex) (s t : State) : Prop := ∀ j, j ∉ is → t.reg j = s.reg j

/-- The cell a push stores to: the address `sp - 1`, wrapping (R100). -/
def State.pushAddress (s : State) : Nat := s.decSp.sp.toNat

/-- The form completes: its register operands are legal and, for a `CALL`, its return address is an address
(R152). -/
def Completes (i : Instr) (s : State) : Prop :=
  i.wellFormed = true ∧ ∀ r, i = .call r → s.pc.toNat + 2 ≤ 255

end Sys2Proof.Machine
end

