-- ==== Sys2Proof/Certificates/Slice0/Obligations.lean ====
section
/-! DEFINITION. The statements for the provers. Where a clause rests on a decision the spec marks as its own
(92_eei_decisions.md) its docstring names the decision and the log entry. -/

open Sys2Proof Sys2Proof.Machine

/-! ### Encoding -/

/-- The byte sequences of 95_test_vectors.md, table V-ENC, decode as that table says: one word of every instruction of
30_encoding.md R55, and five that are no instruction. -/
def Obligations.SpecByteVectorsDecode : Prop :=
  decode [0x82, 0x00, 0x08] = .ok (.ldi 0 8) ∧ decode [0x82, 0x07, 0xFF] = .ok (.ldi 7 255) ∧
  decode [0x47, 0x03] = .ok (.prn 3) ∧ decode [0x01] = .ok .halt ∧
  decode [0xA2, 0x00, 0x01] = .ok (.mul 0 1) ∧ decode [0xA0, 0x02, 0x02] = .ok (.add 2 2) ∧
  decode [0xA7, 0x05, 0x06] = .ok (.cmp 5 6) ∧ decode [0x45, 0x00] = .ok (.push 0) ∧
  decode [0x46, 0x01] = .ok (.pop 1) ∧ decode [0x50, 0x01] = .ok (.call 1) ∧ decode [0x11] = .ok .ret ∧
  decode [0x54, 0x04] = .ok (.jmp 4) ∧ decode [0x55, 0x03] = .ok (.jeq 3) ∧ decode [0x56, 0x03] = .ok (.jne 3) ∧
  decode [0x00] = .error (.unrecognized 0x00) ∧ decode [0xFF] = .error (.unrecognized 0xFF) ∧
  decode [0x83, 0x00, 0x00] = .error (.unrecognized 0x83) ∧
  decode [0xA1, 0x00, 0x01] = .error (.unrecognized 0xA1) ∧ decode [0x02] = .error (.unrecognized 0x02)

/-- Decoding and encoding agree, in both directions: the bytes of any instruction, with anything after them, decode to
it, and bytes that decode to an instruction ARE its encoding with something after it. So no bit of an encoding is
dropped, no two encodings overlap, and nothing but the 13 encodings decodes (R50, R51, R52, R55). -/
def Obligations.DecodeAcceptsExactlyTheEncodings : Prop :=
  (∀ (i : Instr) (rest : List Byte), decode (encode i ++ rest) = .ok i) ∧
  ∀ (bytes : List Byte) (i : Instr), decode bytes = .ok i → ∃ rest, bytes = encode i ++ rest

/-- R51: the exact value of the opcode byte, and nothing else, tells the length; the operand counts are those of the
third column of R55; no instruction is longer than 3 bytes; an unrecognized opcode has no length, and the machine
stops at it. -/
def Obligations.OpcodeByteAloneFixesTheLength : Prop :=
  (∀ b : Byte, (opcodeMap b).map Format.operandCount =
    if b ∈ ([0x01, 0x11] : List Byte) then some 0
    else if b ∈ ([0x47, 0x45, 0x46, 0x50, 0x54, 0x55, 0x56] : List Byte) then some 1
    else if b ∈ ([0x82, 0xA2, 0xA0, 0xA7] : List Byte) then some 2
    else none) ∧
  (∀ (b : Byte) (ops : List Byte) (i : Instr), decode (b :: ops) = .ok i →
    i.opcode = b ∧ (opcodeMap b).map (fun f => 1 + f.operandCount) = some i.width ∧ i.width ≤ 3) ∧
  (∀ (b : Byte) (ops : List Byte), opcodeMap b = none → decode (b :: ops) = .error (.unrecognized b)) ∧
  ∀ s : State, s.status = .running → s.pc.toNat ≤ 255 → opcodeMap (s.mem.read s.pc.toNat) = none →
    ∃ t, step s = .next t ∧ t.status ≠ .running

/-- R57: the 243 opcode values outside R55 are illegal. Fetching one raises `UnrecognizedInstruction(M[pc])` and changes
nothing but `status` and `fault`, whatever operand bytes follow, also at address 255 where none could be read. The
record's content and the untouched rest are the spec's decisions D7 and D8 (log 7, 8). -/
def Obligations.UnlistedOpcodeRaisesUnrecognized : Prop :=
  let legal : List Byte := [0x01, 0x11, 0x45, 0x46, 0x47, 0x50, 0x54, 0x55, 0x56, 0x82, 0xA0, 0xA2, 0xA7]
  ((List.range 256).filter fun n => decide (BitVec.ofNat 8 n ∉ legal)).length = 243 ∧
  ∀ s : State, s.status = .running → s.pc.toNat ≤ 255 → s.mem.read s.pc.toNat ∉ legal →
    step s = .next { s with
      status := .faulted,
      fault := some ⟨.unrecognizedInstruction, s.pc, .number (s.mem.read s.pc.toNat).toNat⟩ }

/-! ### The step -/

/-- A step runs the decoded instruction: while RUNNING, when the bytes from `pc` to the end of memory decode to `i`, the
step is `exec i` (R71, R74). Nothing stands around `exec`: no advance follows it (R74). -/
def Obligations.StepRunsTheDecodedInstruction : Prop :=
  ∀ (s : State) (i : Instr), s.status = .running → decode s.bytesAtPc = .ok i → step s = exec i s

/-- An instruction that does not lie wholly below address 256 raises `OutOfBoundsAccess` with the first address above
255 it needs, and nothing wraps to address 0: the opcode fetch at a `pc` above 255, and the operand fetch that reaches
256 (R52, R72, R152, R153; decisions D2, D10, D12, log 3, 10, 12; the record D7, D8). -/
def Obligations.FetchBeyondMemoryRaises : Prop :=
  (∀ s : State, s.status = .running → 255 < s.pc.toNat →
    step s = .next { s with
      status := .faulted, fault := some ⟨.outOfBoundsAccess, s.pc, .number s.pc.toNat⟩ }) ∧
  ∀ (s : State) (f : Format), s.status = .running → s.pc.toNat ≤ 255 →
    opcodeMap (s.mem.read s.pc.toNat) = some f → 255 < s.pc.toNat + f.operandCount →
    step s = .next { s with status := .faulted, fault := some ⟨.outOfBoundsAccess, s.pc, .number 256⟩ }

/-- A register operand byte above 7 raises `OutOfBoundsAccess` of that byte, the first operand before the second, in
every instruction that has a register operand, a jump not taken and a `CALL` at 254 among them, and the instruction has
no effect (R53, R152, R153; decisions D7, D8, D9, D12, D13, log 7, 8, 9, 12, 13). -/
def Obligations.IllegalRegisterByteRaises : Prop :=
  (∀ (i : Instr) (r v : Byte) (s : State),
    i ∈ [.ldi r v, .prn r, .push r, .pop r, .call r, .jmp r, .jeq r, .jne r] → 7 < r.toNat →
    exec i s = .next { s with
      status := .faulted, fault := some ⟨.outOfBoundsAccess, s.pc, .number r.toNat⟩ }) ∧
  ∀ (i : Instr) (a b : Byte) (s : State), i ∈ [.mul a b, .add a b, .cmp a b] →
    (7 < a.toNat → exec i s = .next { s with
      status := .faulted, fault := some ⟨.outOfBoundsAccess, s.pc, .number a.toNat⟩ }) ∧
    (a.toNat ≤ 7 → 7 < b.toNat → exec i s = .next { s with
      status := .faulted, fault := some ⟨.outOfBoundsAccess, s.pc, .number b.toNat⟩ })

/-- No step happens unless RUNNING, each stop under its own name (R22, R71; decision D5, log 4). -/
def Obligations.StoppedMachineTakesNoStep : Prop :=
  ∀ s : State,
    (s.status = .idle → step s = .fault .notStarted) ∧
    (s.status = .halted → step s = .fault .halted) ∧
    (s.status = .faulted → step s = .fault .faulted)

/-- R75: a run ends in exactly two ways. While RUNNING a step always completes; it leaves the machine RUNNING, or HALTED
exactly when the instruction executed is `HALT`, or FAULTED with a fault record. So after any number of turns of the
loop the run goes on, has halted, or has faulted and says which fault; the two ends are told apart by `status`. A `JMP`
to itself runs for ever. -/
def Obligations.RunEndsOnlyByHaltOrFault : Prop :=
  (∀ s : State, s.status = .running → ∃ t, step s = .next t ∧
    (t.status = .halted ↔ decode s.bytesAtPc = .ok .halt) ∧
    (t.status = .running ∨ t.status = .halted ∨ (t.status = .faulted ∧ t.fault.isSome))) ∧
  (∀ (n : Nat) (s : State), s.status = .running →
    (s.runLoop n).status = .running ∨ (s.runLoop n).status = .halted ∨
      ((s.runLoop n).status = .faulted ∧ (s.runLoop n).fault.isSome)) ∧
  ∀ (s : State) (r : Byte) (hr : r.toNat < 8), s.status = .running → decode s.bytesAtPc = .ok (.jmp r) →
    (s.reg ⟨r.toNat, hr⟩).toNat = s.pc.toNat → ∀ n, s.runLoop n = s

/-- Faults are precise: a step that ends FAULTED has changed nothing but `status` and `fault`, and the record's pc is the
pc the step began with (R71, R155; decision D7, log 7). -/
def Obligations.FaultsArePrecise : Prop :=
  ∀ s t : State, step s = .next t → t.status = .faulted →
    ∃ (cause : FaultCause) (info : FaultInfo),
      t = { s with status := .faulted, fault := some ⟨cause, s.pc, info⟩ }

/-- No instruction can cause `UnsupportedALUOperation` (R92, which marks it derived; decision D21, log 20): from a state
with no fault recorded, the fault a step records is another. -/
def Obligations.NoStepRaisesTheAluFault : Prop :=
  ∀ s t : State, s.fault = none → step s = .next t → ∀ f ∈ t.fault, f.cause ≠ .unsupportedALUOperation

/-! ### What each instruction does -/

/-- R54: the immediate is the whole byte `op2`, any value of it legal: `LDI r, v` completes and reading `r` then yields
`v`, and `v` has no part in whether the instruction is well formed. Only `LDI` has an immediate: every operand byte of
any other instruction is a register operand, so there is no displacement and no memory operand. No target is taken from the instruction's bytes:
`JMP`, a taken `JEQ` or `JNE` and `CALL` go to the address in a register (for `CALL R7`, before or after the decrement
of `sp`: which of the two is no part of this statement), `RET` to the address on the stack. -/
def Obligations.ImmediateIsTheWholeByteAndTargetsAreNot : Prop :=
  (∀ (r v : Byte) (hr : r.toNat < 8) (s : State), ∃ t, exec (.ldi r v) s = .next t ∧ t.reg ⟨r.toNat, hr⟩ = v) ∧
  (∀ r v : Byte, (Instr.ldi r v).wellFormed = decide (r.toNat < 8)) ∧
  (∀ i : Instr, (∀ r v, i ≠ .ldi r v) → i.operandBytes = i.regOperands) ∧
  (∀ (r : Byte) (hr : r.toNat < 8) (s : State),
    (∃ t, exec (.jmp r) s = .next t ∧ t.pc.toNat = (s.reg ⟨r.toNat, hr⟩).toNat) ∧
    (s.fl.E = true → ∃ t, exec (.jeq r) s = .next t ∧ t.pc.toNat = (s.reg ⟨r.toNat, hr⟩).toNat) ∧
    (s.fl.E = false → ∃ t, exec (.jne r) s = .next t ∧ t.pc.toNat = (s.reg ⟨r.toNat, hr⟩).toNat) ∧
    (s.pc.toNat ≤ 253 → ∃ t, exec (.call r) s = .next t ∧
      (t.pc.toNat = (s.reg ⟨r.toNat, hr⟩).toNat ∨ t.pc.toNat = (t.reg ⟨r.toNat, hr⟩).toNat))) ∧
  ∀ s : State, ∃ t, exec .ret s = .next t ∧ t.pc.toNat = (s.mem.read s.sp.toNat).toNat

/-- R12: `sp` is the storage of `x[7]`. `LDI`, `MUL`, `ADD` and `POP` of register 7 complete and change the stack pointer
(`POP R7` to the popped byte or to one more: which is no part of this statement), and the four stack instructions use
register 7 without naming it: `PUSH` and `CALL` lower it by one, `RET` and `POP` of another register raise it by one.
After a push, and after a call, it holds the address of the byte pushed. Nothing stops a program from naming register 7: an
instruction whose register bytes are 0 to 7 does not fault, but for a `CALL` with no return address. -/
def Obligations.StackPointerIsRegisterSeven : Prop :=
  (∀ s : State, s.sp = s.reg 7) ∧
  (∀ (v : Byte) (s : State), ∃ t, exec (.ldi 7 v) s = .next t ∧ t.sp = v) ∧
  (∀ (b : Byte) (hb : b.toNat < 8) (s : State),
    (∃ t, exec (.mul 7 b) s = .next t ∧ t.sp = s.sp * s.reg ⟨b.toNat, hb⟩) ∧
    ∃ t, exec (.add 7 b) s = .next t ∧ t.sp = s.sp + s.reg ⟨b.toNat, hb⟩) ∧
  (∀ s : State, ∃ t, exec (.pop 7) s = .next t ∧
    (t.sp = s.mem.read s.sp.toNat ∨ t.sp = s.mem.read s.sp.toNat + 1)) ∧
  (∀ (r : Byte) (hr : r.toNat < 8) (s : State),
    (∃ t, exec (.push r) s = .next t ∧ t.sp = s.sp - 1 ∧
      (s.mem.wf → r ≠ 7 → t.mem.read t.sp.toNat = s.reg ⟨r.toNat, hr⟩)) ∧
    (r ≠ 7 → ∃ t, exec (.pop r) s = .next t ∧ t.sp = s.sp + 1) ∧
    (s.pc.toNat ≤ 253 → ∃ t, exec (.call r) s = .next t ∧ t.sp = s.sp - 1 ∧
      (s.mem.wf → (t.mem.read t.sp.toNat).toNat = s.pc.toNat + 2))) ∧
  (∀ s : State, ∃ t, exec .ret s = .next t ∧ t.sp = s.sp + 1) ∧
  ∀ (i : Instr) (s : State), Completes i s → s.status = .running → ∃ t, exec i s = .next t ∧ t.status ≠ .faulted

/-- `LDI r, v` (R80): `x[r] <- v`, `pc + 3`, nothing else. -/
def Obligations.LdiLoadsTheImmediate : Prop :=
  ∀ (r v : Byte) (hr : r.toNat < 8) (s : State),
    exec (.ldi r v) s = .next { s with regs := s.regs.set r.toNat v hr, pc := s.pc + 3 }

/-- `PRN r` (R81): one element, the register's value, is appended to `out`, `pc + 2`, nothing else. -/
def Obligations.PrnEmitsTheRegister : Prop :=
  ∀ (r : Byte) (hr : r.toNat < 8) (s : State),
    exec (.prn r) s = .next { s with out := s.out ++ [s.reg ⟨r.toNat, hr⟩], pc := s.pc + 2 }

/-- `HALT` (R82): `status <- HALTED` and nothing else; that `pc` stays is the spec's decision D6 (log 6). A fetched `01`
runs so at every address, 255 among them. -/
def Obligations.HaltStopsAndChangesNothingElse : Prop :=
  (∀ s : State, exec .halt s = .next { s with status := .halted }) ∧
  ∀ s : State, s.status = .running → s.pc.toNat ≤ 255 → s.mem.read s.pc.toNat = 0x01 →
    step s = .next { s with status := .halted }

/-- `MUL a, b` (R93, R94): the low 8 bits of the full product of the two registers, both read before the write, go to
the first; no flag changes; `pc + 3`. -/
def Obligations.MulWritesTheProductModulo256 : Prop :=
  ∀ (a b : Byte) (ha : a.toNat < 8) (hb : b.toNat < 8) (s : State),
    exec (.mul a b) s = .next { s with
      regs := s.regs.set a.toNat
        (BitVec.ofNat 8 ((s.reg ⟨a.toNat, ha⟩).toNat * (s.reg ⟨b.toNat, hb⟩).toNat % 256)) ha,
      pc := s.pc + 3 }

/-- `ADD a, b` (R93, R95): the sum of the two registers modulo 256, both read before the write, goes to the first; no
flag changes; `pc + 3`. -/
def Obligations.AddWritesTheSumModulo256 : Prop :=
  ∀ (a b : Byte) (ha : a.toNat < 8) (hb : b.toNat < 8) (s : State),
    exec (.add a b) s = .next { s with
      regs := s.regs.set a.toNat
        (BitVec.ofNat 8 (((s.reg ⟨a.toNat, ha⟩).toNat + (s.reg ⟨b.toNat, hb⟩).toNat) % 256)) ha,
      pc := s.pc + 3 }

/-- `CMP a, b` (R96, R97): the three flags as the unsigned comparison of the two registers says, nothing else but
`pc + 3`. That L is "first less than second" and G "first greater" is the spec's decision D16 (log 16). -/
def Obligations.CmpSetsTheFlagsOfTheComparison : Prop :=
  ∀ (a b : Byte) (ha : a.toNat < 8) (hb : b.toNat < 8) (s : State),
    let va := (s.reg ⟨a.toNat, ha⟩).toNat
    let vb := (s.reg ⟨b.toNat, hb⟩).toNat
    (va = vb → exec (.cmp a b) s = .next { s with fl := ⟨true, false, false⟩, pc := s.pc + 3 }) ∧
    (va < vb → exec (.cmp a b) s = .next { s with fl := ⟨false, true, false⟩, pc := s.pc + 3 }) ∧
    (vb < va → exec (.cmp a b) s = .next { s with fl := ⟨false, false, true⟩, pc := s.pc + 3 })

/-- `PUSH r` (R100, R101): `sp` decremented modulo 256, then the register stored at the new `sp`; nothing else but
`pc + 2`. That `PUSH R7` stores the decremented `sp` is the spec's decision D15 (log 15). -/
def Obligations.PushStoresTheRegisterBelowTheStack : Prop :=
  ∀ (r : Byte) (hr : r.toNat < 8) (s : State),
    exec (.push r) s = .next { s with
      regs := s.regs.set 7 (s.sp - 1),
      mem := s.mem.write (s.sp - 1).toNat (if r = 7 then s.sp - 1 else s.reg ⟨r.toNat, hr⟩),
      pc := s.pc + 2 }

/-- `POP r` (R100, R102): the byte at the old `sp` goes to the register after `sp` is incremented modulo 256; memory and
flags stay; `pc + 2`. The order, by which `POP R7` ends with the popped byte in `sp`, is the spec's decision D14
(log 14). -/
def Obligations.PopLoadsTheTopOfTheStack : Prop :=
  ∀ (r : Byte) (hr : r.toNat < 8) (s : State),
    exec (.pop r) s = .next { s with
      regs := (s.regs.set 7 (s.sp + 1)).set r.toNat (s.mem.read s.sp.toNat) hr, pc := s.pc + 2 }

/-- `CALL r` at an address up to 253 (R111): `sp` decremented modulo 256, `pc + 2` stored at the new `sp`, and `pc` the
register's value. That `CALL R7` goes to the decremented `sp` is the spec's decision D15 (log 15). -/
def Obligations.CallPushesTheReturnAddressAndJumps : Prop :=
  ∀ (r : Byte) (hr : r.toNat < 8) (s : State), s.pc.toNat ≤ 253 →
    exec (.call r) s = .next { s with
      regs := s.regs.set 7 (s.sp - 1),
      mem := s.mem.write (s.sp - 1).toNat (BitVec.ofNat 8 (s.pc.toNat + 2)),
      pc := (if r = 7 then s.sp - 1 else s.reg ⟨r.toNat, hr⟩).setWidth 9 }

/-- `CALL` with a return address above 255, from the fetchable addresses only the one at 254, raises
`OutOfBoundsAccess` of it and stores nothing (R111; decision D11, log 11; the record D7, D8). -/
def Obligations.CallWithoutAReturnAddressRaises : Prop :=
  ∀ (r : Byte) (s : State), r.toNat < 8 → 253 < s.pc.toNat →
    exec (.call r) s = .next { s with
      status := .faulted, fault := some ⟨.outOfBoundsAccess, s.pc, .number (s.pc.toNat + 2)⟩ }

/-- R112, `RET`: one byte `11`; `pc` becomes the byte at `sp`, always an address, `sp` is incremented modulo 256, and
nothing else changes. It reads no operand byte, so a `RET` at 255 executes. It takes whatever the cell holds: straight
after reset `M[0xF4]`, leaving `sp = 0xF5`; with `sp = 255` `M[255]`, leaving `sp = 0`; after a `PUSH r` the value
pushed, so that the pair is a jump to the register (for register 7 as decision D15 has it, log 15). -/
def Obligations.RetPopsTheProgramCounter : Prop :=
  encode .ret = [0x11] ∧
  (∀ s : State, exec .ret s = .next { s with
    regs := s.regs.set 7 (s.sp + 1), pc := (s.mem.read s.sp.toNat).setWidth 9 }) ∧
  (∀ s : State, s.status = .running → s.pc.toNat ≤ 255 → s.mem.read s.pc.toNat = 0x11 →
    ∃ t, step s = .next t ∧ t.pc.toNat = (s.mem.read s.sp.toNat).toNat ∧ t.pc.toNat ≤ 255 ∧ t.sp = s.sp + 1) ∧
  (∀ m : Memory, ∃ t, exec .ret { State.reset with mem := m } = .next t ∧
    t.pc.toNat = (m.read 0xF4).toNat ∧ t.sp = 0xF5) ∧
  (∀ s : State, s.sp = 255 → ∃ t, exec .ret s = .next t ∧ t.pc.toNat = (s.mem.read 255).toNat ∧ t.sp = 0) ∧
  ∀ (r : Byte) (hr : r.toNat < 8) (s : State), s.mem.wf →
    ∃ t u, exec (.push r) s = .next t ∧ exec .ret t = .next u ∧
      u.pc.toNat = (t.reg ⟨r.toNat, hr⟩).toNat

/-- R120: the three jumps take their target from a register as an absolute address. `JMP` always, `JEQ` when E is set,
`JNE` when E is clear go there; otherwise `pc + 2`. Nothing but `pc` changes: no link, no delay slot. No instruction
tests L or G: they have no part in where any instruction goes. -/
def Obligations.JumpsGoToTheRegisterAndTestOnlyE : Prop :=
  (∀ (r : Byte) (hr : r.toNat < 8) (s : State),
    exec (.jmp r) s = .next { s with pc := (s.reg ⟨r.toNat, hr⟩).setWidth 9 } ∧
    (s.fl.E = true → exec (.jeq r) s = .next { s with pc := (s.reg ⟨r.toNat, hr⟩).setWidth 9 }) ∧
    (s.fl.E = false → exec (.jeq r) s = .next { s with pc := s.pc + 2 }) ∧
    (s.fl.E = false → exec (.jne r) s = .next { s with pc := (s.reg ⟨r.toNat, hr⟩).setWidth 9 }) ∧
    (s.fl.E = true → exec (.jne r) s = .next { s with pc := s.pc + 2 })) ∧
  ∀ (i : Instr) (s t : State) (f : Flags), f.E = s.fl.E → exec i s = .next t →
    ∃ t', exec i { s with fl := f } = .next t' ∧ t'.pc = t.pc

/-- The `pc` after each instruction (R15, R74), from an address it can be fetched at and not wrapped: 256 after one whose
last byte is at 255. A form that faults leaves it. That `HALT` holds it is decision D6 (log 6), the 256 decision D2
(log 3), the target of `CALL R7` decision D15 (log 15). -/
def Obligations.PcAfterEachInstruction : Prop :=
  ∀ (i : Instr) (s t : State), s.pc.toNat ≤ 255 → exec i s = .next t →
    (i.wellFormed = true →
      (∀ r v a b, i ∈ [.ldi r v, .mul a b, .add a b, .cmp a b] → t.pc.toNat = s.pc.toNat + 3) ∧
      (∀ r, i ∈ [.prn r, .push r, .pop r] → t.pc.toNat = s.pc.toNat + 2) ∧
      (i = .halt → t.pc = s.pc) ∧
      (∀ (r : Byte) (hr : r.toNat < 8), i = .call r → s.pc.toNat + 2 ≤ 255 →
        t.pc.toNat = (t.reg ⟨r.toNat, hr⟩).toNat) ∧
      (∀ r, i = .call r → 255 < s.pc.toNat + 2 → t.pc = s.pc) ∧
      (i = .ret → t.pc.toNat = (s.mem.read s.sp.toNat).toNat) ∧
      (∀ (r : Byte) (hr : r.toNat < 8),
        (i = .jmp r → t.pc.toNat = (s.reg ⟨r.toNat, hr⟩).toNat) ∧
        (i = .jeq r → t.pc.toNat = if s.fl.E then (s.reg ⟨r.toNat, hr⟩).toNat else s.pc.toNat + 2) ∧
        (i = .jne r → t.pc.toNat = if s.fl.E then s.pc.toNat + 2 else (s.reg ⟨r.toNat, hr⟩).toNat))) ∧
    (i.wellFormed = false → t.pc = s.pc)

/-- The ALU has exactly two operations (R90 to R92; decisions D21, D22, log 20): `ADD` reads and writes registers
through indices and writes no flag, `CMP` takes two values, writes the flags and no register, neither touches anything
else, and any other operation name raises `UnsupportedALUOperation`. -/
def Obligations.AluHasExactlyTwoOperations : Prop :=
  (∀ (a b : RegIndex) (s : State),
    alu (.add a b) s = .ok { s with
      regs := s.regs.set a (BitVec.ofNat 8 (((s.reg a).toNat + (s.reg b).toNat) % 256)) }) ∧
  (∀ (va vb : Byte) (s : State),
    alu (.cmp va vb) s = .ok { s with
      fl := ⟨decide (va.toNat = vb.toNat), decide (va.toNat < vb.toNat), decide (vb.toNat < va.toNat)⟩ }) ∧
  ∀ (name : String) (s : State),
    alu (.other name) s = .error ⟨.unsupportedALUOperation, .selector name⟩

/-- The access primitives (R31, R32; decision D10, log 10): an address above 255 raises `OutOfBoundsAccess` of it; below,
a read gives the cell, and a write changes that cell alone. Every address 0 to 255 is legal for both (R30). -/
def Obligations.AccessPrimitivesCheckTheAddress : Prop :=
  (∀ (s : State) (a : Nat), 255 < a → s.memRead a = .error ⟨.outOfBoundsAccess, .number a⟩) ∧
  (∀ (s : State) (a : Nat) (v : Byte), 255 < a → s.memWrite a v = .error ⟨.outOfBoundsAccess, .number a⟩) ∧
  (∀ (s : State) (a : Nat), a ≤ 255 → s.memRead a = .ok (s.mem.read a)) ∧
  ∀ (s : State) (a : Nat) (v : Byte), s.mem.wf → a ≤ 255 →
    ∃ t, s.memWrite a v = .ok t ∧ t = { s with mem := t.mem } ∧ t.mem.read a = v ∧ s.SameMemoryBut a t

/-! ### Frames -/

/-- `LDI`, `MUL`, `ADD` leave unchanged every register but the destination, all flags, every byte of memory, the output,
the status and the fault record (R80, R94, R95). -/
def Obligations.LdiMulAddFrame : Prop :=
  ∀ (i : Instr) (d x : Byte) (hd : d.toNat < 8) (s t : State), i ∈ [.ldi d x, .mul d x, .add d x] →
    i.wellFormed = true → exec i s = .next t →
    s.SameRegsBut [⟨d.toNat, hd⟩] t ∧ t.fl = s.fl ∧ s.SameMemory t ∧ t.out = s.out ∧ t.status = s.status ∧
      t.fault = s.fault

/-- `PRN`, `CMP`, `HALT` write no register and no byte of memory and leave the fault record; only `CMP` writes flags, only
`PRN` the output, only `HALT` the status (R81, R82, R96). -/
def Obligations.PrnCmpHaltFrame : Prop :=
  ∀ (i : Instr) (a b : Byte) (s t : State), i ∈ [.prn a, .cmp a b, .halt] → i.wellFormed = true →
    exec i s = .next t →
    s.SameRegsBut [] t ∧ s.SameMemory t ∧ t.fault = s.fault ∧ (i ≠ .cmp a b → t.fl = s.fl) ∧
      (i ≠ .prn a → t.out = s.out) ∧ (i ≠ .halt → t.status = s.status)

/-- `JMP`, `JEQ`, `JNE` change nothing but `pc`: no register, flag, byte of memory, output, status or fault record
(R121 to R123). -/
def Obligations.JumpFrame : Prop :=
  ∀ (i : Instr) (r : Byte) (s t : State), i ∈ [.jmp r, .jeq r, .jne r] → i.wellFormed = true → exec i s = .next t →
    s.SameRegsBut [] t ∧ t.fl = s.fl ∧ s.SameMemory t ∧ t.out = s.out ∧ t.status = s.status ∧ t.fault = s.fault

/-- `PUSH` and `CALL` change register 7, one byte of memory, that at the decremented `sp`, and `pc`; every other register
and byte, the flags, the output, the status and the fault record stay (R101, R111). -/
def Obligations.PushCallFrame : Prop :=
  ∀ (i : Instr) (r : Byte) (s t : State) (a : Nat), i ∈ [.push r, .call r] → Completes i s → s.pushAddress = a →
    exec i s = .next t →
    s.SameRegsBut [7] t ∧ t.fl = s.fl ∧ s.SameMemoryBut a t ∧ t.out = s.out ∧ t.status = s.status ∧
      t.fault = s.fault

/-- `POP` changes register 7, its destination and `pc`, `RET` register 7 and `pc`; no byte of memory, the popped cell
included, no flag, output, status or fault record changes (R102, R112). -/
def Obligations.PopRetFrame : Prop :=
  (∀ (r : Byte) (hr : r.toNat < 8) (s t : State), exec (.pop r) s = .next t →
    s.SameRegsBut [7, ⟨r.toNat, hr⟩] t ∧ t.fl = s.fl ∧ s.SameMemory t ∧ t.out = s.out ∧ t.status = s.status ∧
      t.fault = s.fault) ∧
  ∀ s t : State, exec .ret s = .next t →
    s.SameRegsBut [7] t ∧ t.fl = s.fl ∧ s.SameMemory t ∧ t.out = s.out ∧ t.status = s.status ∧ t.fault = s.fault

/-! ### Whole-machine rules -/

/-- Writers and readers of the flags (R18): `CMP` alone writes them, all three at once and without reading them; *load*
and *run* leave them; an instruction other than `JEQ`, `JNE` and `CMP` does the same whatever they hold, and `JEQ` and
`JNE` do the same whatever L and G hold. The direction of L and G is decision D16 (log 16). -/
def Obligations.OnlyCmpWritesTheFlags : Prop :=
  (∀ (i : Instr) (s t : State), (∀ a b, i ≠ .cmp a b) → exec i s = .next t → t.fl = s.fl) ∧
  (∀ (a b : Byte) (ha : a.toNat < 8) (hb : b.toNat < 8) (s : State) (f : Flags),
    ∃ t, exec (.cmp a b) s = .next t ∧ exec (.cmp a b) { s with fl := f } = .next t ∧
      (t.fl.E = true ↔ s.reg ⟨a.toNat, ha⟩ = s.reg ⟨b.toNat, hb⟩) ∧
      (t.fl.L = true ↔ (s.reg ⟨a.toNat, ha⟩).toNat < (s.reg ⟨b.toNat, hb⟩).toNat) ∧
      (t.fl.G = true ↔ (s.reg ⟨b.toNat, hb⟩).toNat < (s.reg ⟨a.toNat, ha⟩).toNat)) ∧
  (∀ (s t : State) (bytes : List Byte), s.hostLoad bytes = .next t → t.fl = s.fl) ∧
  (∀ s : State, s.hostRun.fl = s.fl) ∧
  (∀ (i : Instr) (s t : State) (f : Flags), (∀ r, i ≠ .jeq r ∧ i ≠ .jne r) → (∀ a b, i ≠ .cmp a b) →
    exec i s = .next t → exec i { s with fl := f } = .next { t with fl := f }) ∧
  ∀ (i : Instr) (r : Byte) (s t : State) (f : Flags), i ∈ [.jeq r, .jne r] → f.E = s.fl.E →
    exec i s = .next t → exec i { s with fl := f } = .next { t with fl := f }

/-- R19: exactly one flag is set after any `CMP`; a step leaves the flags as they were or with exactly one set, so all
three are clear only from reset to the first comparison and never two are set. Reset leaves them clear, and then `JEQ`
does not jump and `JNE` does. -/
def Obligations.ExactlyOneFlagAfterComparison : Prop :=
  State.reset.fl = ⟨false, false, false⟩ ∧
  (∀ (a b : Byte) (s : State), a.toNat < 8 → b.toNat < 8 →
    ∃ t, exec (.cmp a b) s = .next t ∧ t.fl.exactlyOne) ∧
  (∀ s t : State, step s = .next t →
    t.fl = s.fl ∨ (t.fl.exactlyOne ∧ ∃ a b, decode s.bytesAtPc = .ok (.cmp a b))) ∧
  ∀ (s : State) (r : Byte) (hr : r.toNat < 8), s.fl = ⟨false, false, false⟩ →
    (∃ t, exec (.jeq r) s = .next t ∧ t.pc = s.pc + 2) ∧
    ∃ t, exec (.jne r) s = .next t ∧ t.pc.toNat = (s.reg ⟨r.toNat, hr⟩).toNat

/-- Which instructions reach data memory (R21, conflict C6). Only `PUSH` and `CALL` write it, one cell at the decremented
`sp`; only `POP` and `RET` read it, and only at `sp`. Every instruction but `POP` and `RET` does the same whatever memory
holds: it leaves any memory as it is or stores one byte, the SAME byte at the same address, in each; a `PUSH` or `CALL`
that completes stores it, so canonical memories agree there afterwards. -/
def Obligations.OnlyStackInstructionsReachDataMemory : Prop :=
  (∀ (i : Instr) (s t : State), (∀ r, i ≠ .push r ∧ i ≠ .call r) → exec i s = .next t → t.mem = s.mem) ∧
  (∀ (i : Instr) (s t : State), exec i s = .next t → s.SameMemoryBut s.pushAddress t) ∧
  (∀ (i : Instr) (s t : State) (m : Memory), (∀ r, i ≠ .push r ∧ i ≠ .call r) → m.read s.sp.toNat = s.mem.read s.sp.toNat →
    exec i s = .next t → exec i { s with mem := m } = .next { t with mem := m }) ∧
  (∀ (i : Instr) (s t : State), (∀ r, i ≠ .pop r) → i ≠ .ret → exec i s = .next t →
    (t.mem = s.mem ∧ ∀ m : Memory, exec i { s with mem := m } = .next { t with mem := m }) ∨
    ∃ v, t.mem = s.mem.write s.pushAddress v ∧
      ∀ m : Memory, exec i { s with mem := m } = .next { t with mem := m.write s.pushAddress v }) ∧
  ∀ (i : Instr) (r : Byte) (s : State) (m : Memory), i ∈ [.push r, .call r] → Completes i s → s.mem.wf → m.wf →
    ∃ t m', exec i s = .next t ∧ exec i { s with mem := m } = .next { t with mem := m' } ∧
      m'.read s.pushAddress = t.mem.read s.pushAddress ∧ ∀ a, a ≠ s.pushAddress → m'.read a = m.read a

/-- The output only grows, by at most one byte a step and only by `PRN`, and no instruction reads it (R24, R81;
decision D19, log 19). -/
def Obligations.OutputGrowsOnlyByPrn : Prop :=
  (∀ s t : State, step s = .next t →
    t.out = s.out ∨
      ∃ (r : Byte) (hr : r.toNat < 8), decode s.bytesAtPc = .ok (.prn r) ∧ t.out = s.out ++ [s.reg ⟨r.toNat, hr⟩]) ∧
  ∀ (i : Instr) (s t : State) (o : List Byte), exec i s = .next t →
    ∃ vs, t.out = s.out ++ vs ∧ exec i { s with out := o } = .next { t with out := o ++ vs }

/-- A store is seen by every later fetch of its address (R38, R42). A completing `PUSH` or `CALL` leaves at the new `sp`
the register's value or `pc + 2` (R101, R111). In any state with that memory the machine's own read of that address gives
that byte: the instruction fetched has it as its opcode byte or as the operand byte that lies there, the step executes
that instruction, and a stored opcode byte that is none of the 13 raises. The storing instruction itself is executed as
fetched before its store, whichever cell that overwrites. For `PUSH R7` the value is decision D15's (log 15). -/
def Obligations.StoreIsSeenByALaterFetch : Prop :=
  ∀ (i : Instr) (r : Byte) (hr : r.toNat < 8) (s : State), i ∈ [.push r, .call r] → Completes i s → s.mem.wf →
    ∃ (t : State) (v : Byte), exec i s = .next t ∧ t.mem.read s.pushAddress = v ∧
      (i = .push r → v = t.reg ⟨r.toNat, hr⟩) ∧ (i = .call r → v.toNat = s.pc.toNat + 2) ∧
      (s.status = .running → s.fetch = .ok i → step s = .next t) ∧
      ∀ (u : State) (k : Nat), u.mem = t.mem → u.pc.toNat + k = s.pushAddress →
        u.memRead (u.pc.toNat + k) = .ok v ∧
        (∀ f, u.status = .running → opcodeMap (u.mem.read u.pc.toNat) = some f → k ≤ f.operandCount →
          u.pc.toNat + f.operandCount ≤ 255 →
          ∃ j, u.fetch = .ok j ∧ (encode j)[k]? = some v ∧ step u = exec j u) ∧
        (u.status = .running → k = 0 → opcodeMap v = none → step u = .next (u.raise (Trap.unrecognized v)))

/-- A `PUSH r` followed by a `POP q`, with `sp` and the pushed cell as the push left them, puts the pushed value in
`x[q]` and, unless `q` is 7, restores `sp` (R103, which marks it derived; 95_test_vectors.md S4). The value pushed for
register 7 is decision D15's (log 15), the end of `POP R7` decision D14's (log 14). -/
def Obligations.PushThenPopTransfersTheValue : Prop :=
  ∀ (r q : Byte) (hr : r.toNat < 8) (hq : q.toNat < 8) (s : State), s.mem.wf →
    ∃ t, exec (.push r) s = .next t ∧ t.sp = s.sp - 1 ∧ t.mem.read t.sp.toNat = t.reg ⟨r.toNat, hr⟩ ∧
      (r ≠ 7 → t.reg ⟨r.toNat, hr⟩ = s.reg ⟨r.toNat, hr⟩) ∧
      ∀ u : State, u.sp = t.sp → u.mem.read u.sp.toNat = t.mem.read t.sp.toNat →
        ∃ w, exec (.pop q) u = .next w ∧ w.reg ⟨q.toNat, hq⟩ = t.reg ⟨r.toNat, hr⟩ ∧ (q ≠ 7 → w.sp = s.sp)

/-- A `CALL` at an address up to 253 and a later `RET` with `sp` and the pushed cell as the call left them return to the
instruction after the `CALL` with `sp` as it was (R113, which marks it derived; 95_test_vectors.md S5). -/
def Obligations.RetReturnsToTheInstructionAfterTheCall : Prop :=
  ∀ (r : Byte) (s : State), r.toNat < 8 → s.mem.wf → s.pc.toNat ≤ 253 →
    ∃ t, exec (.call r) s = .next t ∧
      ∀ u : State, u.sp = t.sp → u.mem.read u.sp.toNat = t.mem.read t.sp.toNat →
        ∃ w, exec .ret u = .next w ∧ w.pc.toNat = s.pc.toNat + 2 ∧ w.sp = s.sp

/-- Every step keeps the invariant of the machine, from every state that has it: memory stays in its canonical form, `pc`
within 0 to 256 (R16; decision D2, log 3), at most one flag set (R19), a fault recorded exactly when FAULTED (R23;
decision D5, log 4), at the machine's own pc (R155; decision D7, log 7), never the ALU's (R92; decision D21, log 20). -/
def Obligations.StepKeepsTheInvariant : Prop :=
  ∀ s t : State, s.Inv → step s = .next t → t.Inv

/-- The host's transactions keep the invariant: reset, *load* and the start of *run* (R167). -/
def Obligations.HostTransactionsKeepTheInvariant : Prop :=
  ∀ s : State, s.Inv →
    s.hostReset.Inv ∧ s.hostRun.Inv ∧ ∀ (bytes : List Byte) (t : State), s.hostLoad bytes = .next t → t.Inv

/-- The state after reset has the invariant (R26). -/
def Obligations.ResetMeetsTheInvariant : Prop := State.reset.Inv

/-- Where `pc` reaches 256 (R16; decision D2, log 3): a step keeps `pc` within 0 to 256, and 256 is reached only by an
instruction that ends at address 255. -/
def Obligations.PcReaches256OnlyPastTheLastByte : Prop :=
  ∀ s t : State, s.pc.toNat ≤ 256 → step s = .next t →
    t.pc.toNat ≤ 256 ∧
      (t.pc.toNat = 256 → s.pc.toNat = 256 ∨ ∃ i, decode s.bytesAtPc = .ok i ∧ s.pc.toNat + i.width = 256)

/-! ### Reset and the host -/

/-- What reset leaves, in the values the source gives (the rows of R26 that quote it): `sp` 0xF4, `pc` 0, the flags
clear. -/
def Obligations.ResetLeavesTheSourcesValues : Prop :=
  ∀ s : State, s.hostReset.sp = 0xF4 ∧ s.hostReset.pc = 0 ∧ s.hostReset.fl = ⟨false, false, false⟩

/-- What reset leaves in the values the spec chose itself (R26; decisions D3, D4, D5, D8, D19; log 1, 2, 4, 8, 19):
registers 0 to 6 and every cell zero, IDLE, no fault, no output. -/
def Obligations.ResetLeavesTheChosenValues : Prop :=
  ∀ s : State, (∀ j : RegIndex, j ≠ 7 → s.hostReset.reg j = 0) ∧ (∀ a, s.hostReset.mem.read a = 0) ∧
    s.hostReset.status = .idle ∧ s.hostReset.fault = none ∧ s.hostReset.out = []

/-- R181: the entry point is address 0. `pc` is 0 after reset, whatever memory held before, and *load* writes from
address 0, so once the host starts the run the first byte loaded is the first opcode fetched, and the instruction the
loaded bytes begin with is the first executed. -/
def Obligations.FirstLoadedByteIsTheFirstOpcode : Prop :=
  ∀ (s : State) (b : Byte) (bs : List Byte), bs.length ≤ 255 →
    s.hostReset.pc = 0 ∧
    ∃ t, s.hostReset.hostLoad (b :: bs) = .next t ∧ t.hostRun.pc = 0 ∧ t.hostRun.bytesAtPc.head? = some b ∧
      ∀ i, decode (b :: bs) = .ok i → step t.hostRun = exec i t.hostRun

/-- *load* (R40; decision D17, log 17): while not RUNNING, up to 256 bytes are written from address 0 up, the other cells
and the rest of the state stay; more are refused whole; while RUNNING it is refused. -/
def Obligations.LoadWritesTheProgramFromAddressZero : Prop :=
  (∀ (s : State) (bytes : List Byte), s.status ≠ .running → bytes.length ≤ 256 → s.mem.wf →
    ∃ t, s.hostLoad bytes = .next t ∧ t = { s with mem := t.mem } ∧
      (∀ (a : Nat) (ha : a < bytes.length), t.mem.read a = bytes[a]) ∧
      ∀ a, bytes.length ≤ a → t.mem.read a = s.mem.read a) ∧
  (∀ (s : State) (bytes : List Byte), s.status ≠ .running → 256 < bytes.length →
    s.hostLoad bytes = .refused .loadTooLong) ∧
  ∀ (s : State) (bytes : List Byte), s.status = .running → s.hostLoad bytes = .refused .loadWhileRunning

/-- *run* starts from IDLE and only from IDLE, changing nothing but the status; HALTED and FAULTED are left by neither
*run* nor *load* (R22, R70, R156, R182; decision D5, log 4). -/
def Obligations.OnlyResetLeavesAStoppedMachine : Prop :=
  (∀ s : State, s.status = .idle → s.hostRun = { s with status := .running }) ∧
  (∀ s : State, s.status ≠ .idle → s.hostRun = s) ∧
  (∀ (s t : State) (bytes : List Byte), s.hostLoad bytes = .next t → t.status = s.status ∧ t.fault = s.fault) ∧
  ∀ (s : State) (n : Nat), s.status = .halted ∨ s.status = .faulted → s.runFor n = s

/-- *inspect* (R166, R167; decision D1, log 18): while not RUNNING it answers any register, `pc`, flag, cell, the status,
the fault and the output; an index above 7 or an address above 255 is refused, and so is anything while RUNNING. -/
def Obligations.InspectReadsTheWholeState : Prop :=
  (∀ s : State, s.status ≠ .running →
    (∀ i : RegIndex, s.inspect (.reg i) = .ok (.byte (s.reg i))) ∧
    (∀ i : Nat, 7 < i → s.inspect (.reg i) = .error .inspectOutOfRange) ∧
    (∀ a : Nat, a ≤ 255 → s.inspect (.mem a) = .ok (.byte (s.mem.read a))) ∧
    (∀ a : Nat, 255 < a → s.inspect (.mem a) = .error .inspectOutOfRange) ∧
    s.inspect .pc = .ok (.pc s.pc) ∧ s.inspect .flagE = .ok (.flag s.fl.E) ∧ s.inspect .flagL = .ok (.flag s.fl.L) ∧
    s.inspect .flagG = .ok (.flag s.fl.G) ∧ s.inspect .status = .ok (.status s.status) ∧
    s.inspect .fault = .ok (.fault s.fault) ∧ s.inspect .out = .ok (.out s.out)) ∧
  ∀ (s : State) (q : Query), s.status = .running → s.inspect q = .error .inspectWhileRunning
end

