-- ==== Sys2Proof/Laws/Decode.lean ====
section
/-! SUPPORT. The decoder's small lemmas: what the opcode map answers, and that decoding reads no byte after an unknown
opcode. -/

namespace Sys2Proof

/-- A register byte is legal when it is below 8 (R53). -/
theorem isRegByte_iff {b : Byte} : isRegByte b = true ↔ b.toNat < 8 := decide_eq_true_iff

theorem isRegByte_eq_false_iff {b : Byte} : isRegByte b = false ↔ ¬b.toNat < 8 := decide_eq_false_iff_not

/-- Every row of the opcode map, and no other (R55). -/
theorem opcodeMap_eq_some {b : Byte} {f : Format} (h : opcodeMap b = some f) : (b, f) ∈ opcodeTable := by
  simp only [opcodeMap, opcodeTable, List.lookup_cons] at h
  repeat' split at h
  all_goals first | (cases h; done) | skip
  all_goals
    rename_i hb
    cases h
    rw [eq_of_beq hb]
    simp [opcodeTable]

/-- No two rows of the opcode map overlap (R55). -/
theorem opcodeTable_nodup : (opcodeTable.map Prod.fst).Nodup := by decide

/-- An unknown opcode is answered at once: no operand byte is read (R57). -/
theorem decodeFrom_of_unknown {ε : Type} {read : Nat → Except ε Byte} {un : Byte → ε} {b : Byte}
    (h₀ : read 0 = .ok b) (h : opcodeMap b = none) : decodeFrom read un = .error (un b) := by
  simp [decodeFrom, h₀, h, bind, Except.bind]

/-- An unreadable opcode byte ends the decoding (R71, phase 1). -/
theorem decodeFrom_of_noOpcode {ε : Type} {read : Nat → Except ε Byte} {un : Byte → ε} {e : ε}
    (h₀ : read 0 = .error e) : decodeFrom read un = .error e := by
  simp [decodeFrom, h₀, bind, Except.bind]

/-- The decoder looks at no more than three bytes and treats two readers alike that answer alike. -/
theorem decodeFrom_congr {ε : Type} {read read' : Nat → Except ε Byte} {un : Byte → ε}
    (h₀ : read 0 = read' 0) (h₁ : read 1 = read' 1) (h₂ : read 2 = read' 2) :
    decodeFrom read un = decodeFrom read' un := by
  simp [decodeFrom, h₀, h₁, h₂]

/-- What decoding a list does once its first byte is there: the opcode map decides, then the format's operand bytes are
looked for in order (R52, R57). -/
theorem decode_cons (b : Byte) (bs : List Byte) :
    decode (b :: bs) = match opcodeMap b with
      | none => .error (.unrecognized b)
      | some (.z i) => .ok i
      | some (.r f) => byteOf (b :: bs) 1 >>= fun x => .ok (f x)
      | some (.rr f) => byteOf (b :: bs) 1 >>= fun x => byteOf (b :: bs) 2 >>= fun y => .ok (f x y)
      | some (.ri f) => byteOf (b :: bs) 1 >>= fun x => byteOf (b :: bs) 2 >>= fun y => .ok (f x y) := by
  have h₀ : byteOf (b :: bs) 0 = .ok b := rfl
  rcases h : opcodeMap b with _ | f
  · simp [decode, decodeFrom, h₀, h, bind, Except.bind]
  · cases f <;> simp [decode, decodeFrom, h₀, h, bind, Except.bind]

end Sys2Proof
end

