-- ==== Sys2Proof/Laws/Memory.lean ====
section
/-! SUPPORT. Memory: reads after writes, and that every memory operation keeps the canonical form. -/

namespace Sys2Proof.Machine

@[simp] theorem Memory.read_nil (a : Nat) : Memory.read [] a = Config.resetMem := rfl

theorem Memory.read_cons (k : Nat) (b : Byte) (m : Memory) (a : Nat) :
    Memory.read ((k, b) :: m) a = if a = k then b else Memory.read m a := rfl

/-- An address below every listed one reads as unlisted. -/
theorem Memory.read_of_lt {m : Memory} {a : Nat} (h : ∀ c ∈ m, a < c.1) : m.read a = Config.resetMem := by
  induction m with
  | nil => rfl
  | cons c m ih =>
    obtain ⟨k, b⟩ := c
    have hk : a < k := h (k, b) (by simp)
    rw [Memory.read_cons, if_neg (by omega), ih fun c hc => h c (by simp [hc])]

/-- A write leaves every other cell alone (R32), in any list of cells. -/
theorem Memory.read_write_of_ne (m : Memory) {a b : Nat} (v : Byte) (h : b ≠ a) :
    (m.write a v).read b = m.read b := by
  induction m with
  | nil => unfold Memory.write; split <;> simp [Memory.read_cons, h]
  | cons c m ih =>
    obtain ⟨k, w⟩ := c
    unfold Memory.write
    split_ifs with h₁ h₂ h₃ h₄
    · rfl
    · simp [Memory.read_cons, h]
    · simp [Memory.read_cons, ← h₃, h]
    · simp [Memory.read_cons, ← h₃, h]
    · rw [Memory.read_cons, Memory.read_cons, ih]

theorem Memory.wf_nil : Memory.wf [] := ⟨List.Pairwise.nil, fun _ h => absurd h List.not_mem_nil⟩

theorem Memory.wf_cons {c : Host.Cell} {m : Memory} :
    Memory.wf (c :: m) ↔
      (∀ d ∈ m, c.1 < d.1) ∧ c.1 < Config.memSize ∧ c.2 ≠ Config.resetMem ∧ Memory.wf m := by
  simp only [Memory.wf, List.pairwise_cons, List.forall_mem_cons]
  tauto

/-- A read after a write to the same cell gives the value written. -/
theorem Memory.read_write_self {m : Memory} (hm : m.wf) (a : Nat) (v : Byte) : (m.write a v).read a = v := by
  induction m with
  | nil => unfold Memory.write; split <;> simp_all [Memory.read_cons]
  | cons c m ih =>
    obtain ⟨k, w⟩ := c
    obtain ⟨hlt, -, -, hm'⟩ := Memory.wf_cons.1 hm
    unfold Memory.write
    split_ifs with h₁ h₂ h₃ h₄
    · rw [Memory.read_of_lt, h₂]
      intro d hd
      rcases List.mem_cons.1 hd with rfl | hd
      · exact h₁
      · exact lt_trans h₁ (hlt d hd)
    · simp [Memory.read_cons]
    · rw [Memory.read_of_lt fun d hd => h₃ ▸ hlt d hd, h₄]
    · simp [Memory.read_cons]
    · rw [Memory.read_cons, if_neg h₃, ih hm']

/-- A listed address of a written memory is the address written or was listed before. -/
theorem Memory.mem_write {m : Memory} {a : Nat} {v : Byte} {c : Host.Cell} (h : c ∈ m.write a v) :
    (c = (a, v) ∧ v ≠ Config.resetMem) ∨ c ∈ m := by
  induction m with
  | nil => unfold Memory.write at h; split at h <;> simp_all
  | cons d m ih =>
    obtain ⟨k, w⟩ := d
    unfold Memory.write at h
    split_ifs at h
    · exact .inr h
    · simp only [List.mem_cons] at h ⊢; tauto
    · exact .inr (List.mem_cons_of_mem _ h)
    · simp only [List.mem_cons] at h ⊢; tauto
    · rcases List.mem_cons.1 h with rfl | h
      · exact .inr (by simp)
      · exact (ih h).imp_right fun hc => List.mem_cons_of_mem _ hc

/-- A write keeps the canonical form. -/
theorem Memory.wf_write {m : Memory} (hm : m.wf) {a : Nat} (ha : a < Config.memSize) (v : Byte) : (m.write a v).wf := by
  induction m with
  | nil => unfold Memory.write; split <;> simp_all [Memory.wf]
  | cons c m ih =>
    obtain ⟨k, w⟩ := c
    obtain ⟨hlt, hk, hw, hm'⟩ := Memory.wf_cons.1 hm
    unfold Memory.write
    split_ifs with h₁ h₂ h₃ h₄
    · exact hm
    · refine Memory.wf_cons.2 ⟨?_, ha, h₂, hm⟩
      intro d hd
      rcases List.mem_cons.1 hd with rfl | hd
      · exact h₁
      · exact lt_trans h₁ (hlt d hd)
    · exact hm'
    · exact Memory.wf_cons.2 ⟨fun d hd => h₃ ▸ hlt d hd, ha, h₄, hm'⟩
    · refine Memory.wf_cons.2 ⟨?_, hk, hw, ih hm'⟩
      intro d hd
      rcases Memory.mem_write hd with ⟨rfl, -⟩ | hd
      · show k < a; omega
      · exact hlt d hd

/-- A sequence of writes that stays below 256 keeps the canonical form. -/
theorem Memory.wf_writeFrom {m : Memory} (hm : m.wf) {a : Nat} {bs : List Byte} (h : a + bs.length ≤ Config.memSize) :
    (m.writeFrom a bs).wf := by
  induction bs generalizing m a with
  | nil => exact hm
  | cons b bs ih =>
    simp only [List.length_cons] at h
    exact ih (Memory.wf_write hm (by omega) b) (by omega)

/-- A sequence of writes leaves the cells below it alone. -/
theorem Memory.read_writeFrom_of_lt (m : Memory) {a b : Nat} (bs : List Byte) (h : b < a) :
    (m.writeFrom a bs).read b = m.read b := by
  induction bs generalizing m a with
  | nil => rfl
  | cons c bs ih =>
    rw [Memory.writeFrom, ih _ (by omega), Memory.read_write_of_ne _ _ (by omega)]

/-- A sequence of writes leaves the cells above it alone. -/
theorem Memory.read_writeFrom_of_ge (m : Memory) {a b : Nat} (bs : List Byte) (h : a + bs.length ≤ b) :
    (m.writeFrom a bs).read b = m.read b := by
  induction bs generalizing m a with
  | nil => rfl
  | cons c bs ih =>
    simp only [List.length_cons] at h
    rw [Memory.writeFrom, ih _ (by omega), Memory.read_write_of_ne _ _ (by omega)]

/-- Each cell of a sequence of writes reads as its own byte. -/
theorem Memory.read_writeFrom_self {m : Memory} (hm : m.wf) {a k : Nat} {bs : List Byte}
    (h : a + bs.length ≤ Config.memSize) (hk : k < bs.length) : (m.writeFrom a bs).read (a + k) = bs[k] := by
  induction bs generalizing m a k with
  | nil => cases hk
  | cons b bs ih =>
    simp only [List.length_cons] at h hk
    cases k with
    | zero =>
      rw [Memory.writeFrom, Memory.read_writeFrom_of_lt _ _ (by omega)]
      exact Memory.read_write_self hm a b
    | succ k =>
      rw [Memory.writeFrom, show a + (k + 1) = a + 1 + k by omega,
        ih (Memory.wf_write hm (by omega) b) (by omega) (by omega)]
      rfl

/-- `MemWrite` keeps the canonical form (R32). -/
theorem State.memWrite_wf {s t : State} {a : Nat} {v : Byte} (hs : s.mem.wf) (h : s.memWrite a v = .ok t) :
    t.mem.wf := by
  unfold State.memWrite at h
  split at h
  · cases h
  · cases h
    exact Memory.wf_write hs (by simp only [Config.memSize]; omega) v

/-- What a *load* that is not refused does (R40). -/
theorem State.hostLoad_eq_next {s t : State} {bs : List Byte} (h : s.hostLoad bs = .next t) :
    s.status ≠ .running ∧ bs.length ≤ Config.memSize ∧ t = s.setMem (s.mem.writeFrom Config.loadBase bs) := by
  unfold State.hostLoad at h
  split_ifs at h with h₁ h₂
  cases h
  exact ⟨h₁, not_lt.1 h₂, rfl⟩

/-- *load* keeps the canonical form (R40). -/
theorem State.hostLoad_wf {s t : State} {bs : List Byte} (hs : s.mem.wf) (h : s.hostLoad bs = .next t) : t.mem.wf := by
  obtain ⟨-, hl, rfl⟩ := State.hostLoad_eq_next h
  exact Memory.wf_writeFrom hs (by simpa only [Config.loadBase, Nat.zero_add] using hl)

/-- Placing an instruction's bytes keeps the canonical form. -/
theorem State.placeBytes_wf {s : State} (hs : s.mem.wf) {a : Nat} (ha : a ≤ Config.memSize) (bs : List Byte) :
    (s.placeBytes a bs).mem.wf :=
  Memory.wf_writeFrom hs (by rw [List.length_take]; omega)

/-- The memory after reset is in the canonical form. -/
theorem State.reset_mem_wf : State.reset.mem.wf := Memory.wf_nil

end Sys2Proof.Machine
end

