-- ==== Sys2Proof/Laws/State.lean ====
section
/-! SUPPORT. One lemma per field per update of the state, each true by unfolding, and the reads of a register after each
update, so that no later proof unfolds a record update. -/

namespace Sys2Proof.Machine

variable (s : State)

/-! ### `State.raise` -/

@[simp] theorem State.raise_regs (t : Trap) : (s.raise t).regs = s.regs := rfl
@[simp] theorem State.raise_pc (t : Trap) : (s.raise t).pc = s.pc := rfl
@[simp] theorem State.raise_fl (t : Trap) : (s.raise t).fl = s.fl := rfl
@[simp] theorem State.raise_mem (t : Trap) : (s.raise t).mem = s.mem := rfl
@[simp] theorem State.raise_status (t : Trap) : (s.raise t).status = .faulted := rfl
@[simp] theorem State.raise_fault (t : Trap) : (s.raise t).fault = some ⟨t.cause, s.pc, t.info⟩ := rfl
@[simp] theorem State.raise_out (t : Trap) : (s.raise t).out = s.out := rfl
@[simp] theorem State.raise_reg (t : Trap) (j : RegIndex) : (s.raise t).reg j = s.reg j := rfl
@[simp] theorem State.raise_sp (t : Trap) : (s.raise t).sp = s.sp := rfl

/-! ### `State.setMem` -/

@[simp] theorem State.setMem_regs (m : Memory) : (s.setMem m).regs = s.regs := rfl
@[simp] theorem State.setMem_pc (m : Memory) : (s.setMem m).pc = s.pc := rfl
@[simp] theorem State.setMem_fl (m : Memory) : (s.setMem m).fl = s.fl := rfl
@[simp] theorem State.setMem_mem (m : Memory) : (s.setMem m).mem = m := rfl
@[simp] theorem State.setMem_status (m : Memory) : (s.setMem m).status = s.status := rfl
@[simp] theorem State.setMem_fault (m : Memory) : (s.setMem m).fault = s.fault := rfl
@[simp] theorem State.setMem_out (m : Memory) : (s.setMem m).out = s.out := rfl
@[simp] theorem State.setMem_reg (m : Memory) (j : RegIndex) : (s.setMem m).reg j = s.reg j := rfl
@[simp] theorem State.setMem_sp (m : Memory) : (s.setMem m).sp = s.sp := rfl

/-! ### `State.setReg` -/

@[simp] theorem State.setReg_regs (i : RegIndex) (v : Byte) : (s.setReg i v).regs = s.regs.set i v := rfl
@[simp] theorem State.setReg_pc (i : RegIndex) (v : Byte) : (s.setReg i v).pc = s.pc := rfl
@[simp] theorem State.setReg_fl (i : RegIndex) (v : Byte) : (s.setReg i v).fl = s.fl := rfl
@[simp] theorem State.setReg_mem (i : RegIndex) (v : Byte) : (s.setReg i v).mem = s.mem := rfl
@[simp] theorem State.setReg_status (i : RegIndex) (v : Byte) : (s.setReg i v).status = s.status := rfl
@[simp] theorem State.setReg_fault (i : RegIndex) (v : Byte) : (s.setReg i v).fault = s.fault := rfl
@[simp] theorem State.setReg_out (i : RegIndex) (v : Byte) : (s.setReg i v).out = s.out := rfl

/-! ### `State.setSp` -/

@[simp] theorem State.setSp_pc (v : Byte) : (s.setSp v).pc = s.pc := rfl
@[simp] theorem State.setSp_fl (v : Byte) : (s.setSp v).fl = s.fl := rfl
@[simp] theorem State.setSp_mem (v : Byte) : (s.setSp v).mem = s.mem := rfl
@[simp] theorem State.setSp_status (v : Byte) : (s.setSp v).status = s.status := rfl
@[simp] theorem State.setSp_fault (v : Byte) : (s.setSp v).fault = s.fault := rfl
@[simp] theorem State.setSp_out (v : Byte) : (s.setSp v).out = s.out := rfl

/-! ### `State.decSp` -/

@[simp] theorem State.decSp_pc : (s.decSp).pc = s.pc := rfl
@[simp] theorem State.decSp_fl : (s.decSp).fl = s.fl := rfl
@[simp] theorem State.decSp_mem : (s.decSp).mem = s.mem := rfl
@[simp] theorem State.decSp_status : (s.decSp).status = s.status := rfl
@[simp] theorem State.decSp_fault : (s.decSp).fault = s.fault := rfl
@[simp] theorem State.decSp_out : (s.decSp).out = s.out := rfl

/-! ### `State.incSp` -/

@[simp] theorem State.incSp_pc : (s.incSp).pc = s.pc := rfl
@[simp] theorem State.incSp_fl : (s.incSp).fl = s.fl := rfl
@[simp] theorem State.incSp_mem : (s.incSp).mem = s.mem := rfl
@[simp] theorem State.incSp_status : (s.incSp).status = s.status := rfl
@[simp] theorem State.incSp_fault : (s.incSp).fault = s.fault := rfl
@[simp] theorem State.incSp_out : (s.incSp).out = s.out := rfl

/-! ### `State.setPc` -/

@[simp] theorem State.setPc_regs (n : PcWord) : (s.setPc n).regs = s.regs := rfl
@[simp] theorem State.setPc_pc (n : PcWord) : (s.setPc n).pc = n := rfl
@[simp] theorem State.setPc_fl (n : PcWord) : (s.setPc n).fl = s.fl := rfl
@[simp] theorem State.setPc_mem (n : PcWord) : (s.setPc n).mem = s.mem := rfl
@[simp] theorem State.setPc_status (n : PcWord) : (s.setPc n).status = s.status := rfl
@[simp] theorem State.setPc_fault (n : PcWord) : (s.setPc n).fault = s.fault := rfl
@[simp] theorem State.setPc_out (n : PcWord) : (s.setPc n).out = s.out := rfl
@[simp] theorem State.setPc_reg (n : PcWord) (j : RegIndex) : (s.setPc n).reg j = s.reg j := rfl
@[simp] theorem State.setPc_sp (n : PcWord) : (s.setPc n).sp = s.sp := rfl

/-! ### `State.advance` -/

@[simp] theorem State.advance_regs (k : Nat) : (s.advance k).regs = s.regs := rfl
@[simp] theorem State.advance_pc (k : Nat) : (s.advance k).pc = s.pc + BitVec.ofNat 9 k := rfl
@[simp] theorem State.advance_fl (k : Nat) : (s.advance k).fl = s.fl := rfl
@[simp] theorem State.advance_mem (k : Nat) : (s.advance k).mem = s.mem := rfl
@[simp] theorem State.advance_status (k : Nat) : (s.advance k).status = s.status := rfl
@[simp] theorem State.advance_fault (k : Nat) : (s.advance k).fault = s.fault := rfl
@[simp] theorem State.advance_out (k : Nat) : (s.advance k).out = s.out := rfl
@[simp] theorem State.advance_reg (k : Nat) (j : RegIndex) : (s.advance k).reg j = s.reg j := rfl
@[simp] theorem State.advance_sp (k : Nat) : (s.advance k).sp = s.sp := rfl

/-! ### `State.jumpTo` -/

@[simp] theorem State.jumpTo_regs (v : Byte) : (s.jumpTo v).regs = s.regs := rfl
@[simp] theorem State.jumpTo_pc (v : Byte) : (s.jumpTo v).pc = v.setWidth 9 := rfl
@[simp] theorem State.jumpTo_fl (v : Byte) : (s.jumpTo v).fl = s.fl := rfl
@[simp] theorem State.jumpTo_mem (v : Byte) : (s.jumpTo v).mem = s.mem := rfl
@[simp] theorem State.jumpTo_status (v : Byte) : (s.jumpTo v).status = s.status := rfl
@[simp] theorem State.jumpTo_fault (v : Byte) : (s.jumpTo v).fault = s.fault := rfl
@[simp] theorem State.jumpTo_out (v : Byte) : (s.jumpTo v).out = s.out := rfl
@[simp] theorem State.jumpTo_reg (v : Byte) (j : RegIndex) : (s.jumpTo v).reg j = s.reg j := rfl
@[simp] theorem State.jumpTo_sp (v : Byte) : (s.jumpTo v).sp = s.sp := rfl

/-! ### `State.setFlags` -/

@[simp] theorem State.setFlags_regs (f : Flags) : (s.setFlags f).regs = s.regs := rfl
@[simp] theorem State.setFlags_pc (f : Flags) : (s.setFlags f).pc = s.pc := rfl
@[simp] theorem State.setFlags_fl (f : Flags) : (s.setFlags f).fl = f := rfl
@[simp] theorem State.setFlags_mem (f : Flags) : (s.setFlags f).mem = s.mem := rfl
@[simp] theorem State.setFlags_status (f : Flags) : (s.setFlags f).status = s.status := rfl
@[simp] theorem State.setFlags_fault (f : Flags) : (s.setFlags f).fault = s.fault := rfl
@[simp] theorem State.setFlags_out (f : Flags) : (s.setFlags f).out = s.out := rfl
@[simp] theorem State.setFlags_reg (f : Flags) (j : RegIndex) : (s.setFlags f).reg j = s.reg j := rfl
@[simp] theorem State.setFlags_sp (f : Flags) : (s.setFlags f).sp = s.sp := rfl

/-! ### `State.emit` -/

@[simp] theorem State.emit_regs (v : Byte) : (s.emit v).regs = s.regs := rfl
@[simp] theorem State.emit_pc (v : Byte) : (s.emit v).pc = s.pc := rfl
@[simp] theorem State.emit_fl (v : Byte) : (s.emit v).fl = s.fl := rfl
@[simp] theorem State.emit_mem (v : Byte) : (s.emit v).mem = s.mem := rfl
@[simp] theorem State.emit_status (v : Byte) : (s.emit v).status = s.status := rfl
@[simp] theorem State.emit_fault (v : Byte) : (s.emit v).fault = s.fault := rfl
@[simp] theorem State.emit_out (v : Byte) : (s.emit v).out = s.out ++ [v] := rfl
@[simp] theorem State.emit_reg (v : Byte) (j : RegIndex) : (s.emit v).reg j = s.reg j := rfl
@[simp] theorem State.emit_sp (v : Byte) : (s.emit v).sp = s.sp := rfl

/-! ### `State.halt` -/

@[simp] theorem State.halt_regs : (s.halt).regs = s.regs := rfl
@[simp] theorem State.halt_pc : (s.halt).pc = s.pc := rfl
@[simp] theorem State.halt_fl : (s.halt).fl = s.fl := rfl
@[simp] theorem State.halt_mem : (s.halt).mem = s.mem := rfl
@[simp] theorem State.halt_status : (s.halt).status = .halted := rfl
@[simp] theorem State.halt_fault : (s.halt).fault = s.fault := rfl
@[simp] theorem State.halt_out : (s.halt).out = s.out := rfl
@[simp] theorem State.halt_reg (j : RegIndex) : (s.halt).reg j = s.reg j := rfl
@[simp] theorem State.halt_sp : (s.halt).sp = s.sp := rfl

/-! ### `State.start` -/

@[simp] theorem State.start_regs : (s.start).regs = s.regs := rfl
@[simp] theorem State.start_pc : (s.start).pc = s.pc := rfl
@[simp] theorem State.start_fl : (s.start).fl = s.fl := rfl
@[simp] theorem State.start_mem : (s.start).mem = s.mem := rfl
@[simp] theorem State.start_status : (s.start).status = .running := rfl
@[simp] theorem State.start_fault : (s.start).fault = s.fault := rfl
@[simp] theorem State.start_out : (s.start).out = s.out := rfl
@[simp] theorem State.start_reg (j : RegIndex) : (s.start).reg j = s.reg j := rfl
@[simp] theorem State.start_sp : (s.start).sp = s.sp := rfl

/-! ### Registers read after a register write -/

/-- A read after a register write gives the value written there, and the old value elsewhere (R10). -/
@[simp] theorem State.setReg_reg (i : RegIndex) (v : Byte) (j : RegIndex) :
    (s.setReg i v).reg j = if i = j then v else s.reg j := by
  simp [State.setReg, State.reg, Vector.getElem_set, Fin.ext_iff]

/-- `sp` is register 7 (R12). -/
theorem State.sp_eq : s.sp = s.reg Config.spIndex := rfl

@[simp] theorem State.setReg_sp (i : RegIndex) (v : Byte) :
    (s.setReg i v).sp = if i = Config.spIndex then v else s.sp := s.setReg_reg i v Config.spIndex

@[simp] theorem State.setSp_sp (v : Byte) : (s.setSp v).sp = v := by simp [State.setSp]

@[simp] theorem State.setSp_reg (v : Byte) (j : RegIndex) :
    (s.setSp v).reg j = if Config.spIndex = j then v else s.reg j := s.setReg_reg Config.spIndex v j

@[simp] theorem State.decSp_sp : s.decSp.sp = s.sp - 1 := s.setSp_sp _

@[simp] theorem State.decSp_reg (j : RegIndex) :
    s.decSp.reg j = if Config.spIndex = j then s.sp - 1 else s.reg j := s.setSp_reg _ j

@[simp] theorem State.incSp_sp : s.incSp.sp = s.sp + 1 := s.setSp_sp _

@[simp] theorem State.incSp_reg (j : RegIndex) :
    s.incSp.reg j = if Config.spIndex = j then s.sp + 1 else s.reg j := s.setSp_reg _ j

/-- Two register files that read alike are equal. -/
theorem State.regs_ext {s t : State} (h : ∀ j, s.reg j = t.reg j) : s.regs = t.regs :=
  Vector.ext fun i hi => h ⟨i, hi⟩

end Sys2Proof.Machine
end

