-- ==== Sys2Proof/Laws/Ops.lean ====
section
/-! SUPPORT. One lemma per shared operation that says everything it can do; later proofs cite it instead of unfolding
the operation. -/

namespace Sys2Proof.Machine

variable {s t : State}

/-- Peeling one operation off an instruction's body. -/
theorem bind_eq_ok {α β : Type} {x : Except Trap α} {f : α → Except Trap β} {b : β} (h : x >>= f = .ok b) :
    ∃ a, x = .ok a ∧ f a = .ok b := by
  cases x with
  | error e => cases h
  | ok a => exact ⟨a, rfl, h⟩

/-- An instruction that ends in a next state has its result, or has taken a fault from the state it started in. -/
theorem State.conclude_eq_next {e : Except Trap State} (h : s.conclude e = .next t) :
    e = .ok t ∨ ∃ f, e = .error f ∧ t = s.raise f := by
  cases e with
  | ok u => cases h; exact .inl rfl
  | error f => cases h; exact .inr ⟨f, rfl, rfl⟩

/-- An instruction's body always ends in a next state. -/
theorem State.conclude_next (s : State) (e : Except Trap State) : ∃ t, s.conclude e = .next t := by
  cases e <;> exact ⟨_, rfl⟩

/-- A fault is taken with the cause and the info of the trap and the pc of the state (R155). -/
theorem State.raise_eq (s : State) (f : Trap) :
    s.raise f = { s with status := .faulted, fault := some ⟨f.cause, s.pc, f.info⟩ } := rfl

theorem regOperand_of_lt {b : Byte} (h : b.toNat < 8) : regOperand b = .ok ⟨b.toNat, h⟩ := dif_pos h

theorem regOperand_of_ge {b : Byte} (h : ¬b.toNat < 8) : regOperand b = .error (Trap.outOfBounds b.toNat) := dif_neg h

/-- A register operand is its own byte's value, or the fault that names the byte (R53). -/
theorem regOperand_cases (b : Byte) :
    (∃ h : b.toNat < 8, regOperand b = .ok ⟨b.toNat, h⟩) ∨
      (¬b.toNat < 8 ∧ regOperand b = .error (Trap.outOfBounds b.toNat)) := by
  by_cases h : b.toNat < 8
  · exact .inl ⟨h, regOperand_of_lt h⟩
  · exact .inr ⟨h, regOperand_of_ge h⟩

/-- Two register operands are checked first, then second (R53, R153). -/
theorem regOperands2_cases (a b : Byte) :
    (∃ (ha : a.toNat < 8) (hb : b.toNat < 8), regOperands2 a b = .ok (⟨a.toNat, ha⟩, ⟨b.toNat, hb⟩)) ∨
      (¬a.toNat < 8 ∧ regOperands2 a b = .error (Trap.outOfBounds a.toNat)) ∨
      (a.toNat < 8 ∧ ¬b.toNat < 8 ∧ regOperands2 a b = .error (Trap.outOfBounds b.toNat)) := by
  unfold regOperands2
  rcases regOperand_cases a with ⟨ha, ea⟩ | ⟨ha, ea⟩ <;> rcases regOperand_cases b with ⟨hb, eb⟩ | ⟨hb, eb⟩ <;>
    simp [ea, eb, ha, hb, bind, Except.bind]

/-- A data address is a byte, so a read at it is always in bounds (R31, R100). -/
theorem State.memRead_byte (s : State) (a : Byte) : s.memRead a.toNat = .ok (s.mem.read a.toNat) :=
  if_neg (by have := a.isLt; omega)

/-- A data address is a byte, so a write at it is always in bounds (R32, R100). -/
theorem State.memWrite_byte (s : State) (a v : Byte) :
    s.memWrite a.toNat v = .ok (s.setMem (s.mem.write a.toNat v)) :=
  if_neg (by have := a.isLt; omega)

/-- A push never faults: it decrements `sp` and stores at the new `sp` (R100). -/
theorem State.pushWith_eq (s : State) (value : State → Byte) :
    s.pushWith value = .ok (s.decSp.setMem (s.mem.write (s.sp - 1).toNat (value s.decSp))) := by
  unfold State.pushWith
  rw [s.decSp.memWrite_byte, State.decSp_sp, State.decSp_mem]

/-- A pop never faults: it reads at the old `sp` and increments it (R100). -/
theorem State.popByte_eq (s : State) : s.popByte = .ok (s.mem.read s.sp.toNat, s.incSp) := by
  simp [State.popByte, State.memRead_byte, bind, Except.bind]

/-- The ALU's two operations complete; any other raises (R90, R92). -/
theorem alu_cases (q : AluRequest) (s : State) :
    (∃ i j, q = .add i j ∧ alu q s = .ok (s.setReg i (s.reg i + s.reg j))) ∨
      (∃ u v, q = .cmp u v ∧ alu q s = .ok (s.setFlags (compareFlags u v))) ∨
      (∃ n, q = .other n ∧ alu q s = .error (Trap.unsupportedALU n)) := by
  cases q with
  | add i j => exact .inl ⟨i, j, rfl, rfl⟩
  | cmp u v => exact .inr (.inl ⟨u, v, rfl, rfl⟩)
  | other n => exact .inr (.inr ⟨n, rfl, rfl⟩)

/-- The return address is `pc + 2`, or the fault that names it (R111). -/
theorem State.returnAddress_cases (s : State) :
    (s.pc.toNat + 2 ≤ 255 ∧ s.returnAddress = .ok (BitVec.ofNat 8 (s.pc.toNat + 2))) ∨
      (255 < s.pc.toNat + 2 ∧ s.returnAddress = .error (Trap.outOfBounds (s.pc.toNat + 2))) := by
  unfold State.returnAddress
  split
  · exact .inr ⟨by omega, rfl⟩
  · exact .inl ⟨by omega, rfl⟩

/-- A conditional jump takes the register's address, falls through, or faults on its operand (R120, R53). -/
theorem State.jumpIf_cases (s : State) (taken : Bool) (r : Byte) :
    (∃ h : r.toNat < 8,
        s.jumpIf taken r = .ok (if taken then s.jumpTo (s.reg ⟨r.toNat, h⟩) else s.advance 2)) ∨
      (¬r.toNat < 8 ∧ s.jumpIf taken r = .error (Trap.outOfBounds r.toNat)) := by
  unfold State.jumpIf
  rcases regOperand_cases r with ⟨h, e⟩ | ⟨h, e⟩ <;> simp [h, e, bind, Except.bind]

/-- The three outcomes of a comparison exclude each other and are the only ones (R97). -/
theorem compareFlags_cases (u v : Byte) :
    (u.toNat = v.toNat ∧ compareFlags u v = ⟨true, false, false⟩) ∨
      (u.toNat < v.toNat ∧ compareFlags u v = ⟨false, true, false⟩) ∨
      (u.toNat > v.toNat ∧ compareFlags u v = ⟨false, false, true⟩) := by
  rcases lt_trichotomy u.toNat v.toNat with h | h | h
  · exact .inr (.inl ⟨h, by simp [compareFlags, h, h.ne, h.le]⟩)
  · exact .inl ⟨h, by simp [compareFlags, h]⟩
  · exact .inr (.inr ⟨h, by simp [compareFlags, h, h.ne', h.le]⟩)

end Sys2Proof.Machine
end

