-- ==== Sys2Proof/Laws/PerInstr.lean ====
section
/-! SUPPORT. Facts about every instruction as syntax, one lemma per constructor. -/

/-- The shape of an encoding (R50): the opcode byte first, one to three bytes, and the register operands are operand
bytes in their order. -/
def Sys2Proof.Laws.EncodeShape.Statement (i : Sys2Proof.Instr) : Prop :=
  (Sys2Proof.encode i).head? = some i.opcode ∧ (Sys2Proof.encode i).length = i.width ∧ i.width ≤ 3 ∧
    i.regOperands <+: i.operandBytes

namespace Sys2Proof.Laws.EncodeShape

theorem ldi (r v : Byte) : Statement (.ldi r v) := ⟨rfl, rfl, Nat.le_of_ble_eq_true rfl, [v], rfl⟩
theorem prn (r : Byte) : Statement (.prn r) := ⟨rfl, rfl, Nat.le_of_ble_eq_true rfl, [], rfl⟩
theorem halt : Statement .halt := ⟨rfl, rfl, Nat.le_of_ble_eq_true rfl, [], rfl⟩
theorem mul (a b : Byte) : Statement (.mul a b) := ⟨rfl, rfl, Nat.le_of_ble_eq_true rfl, [], rfl⟩
theorem add (a b : Byte) : Statement (.add a b) := ⟨rfl, rfl, Nat.le_of_ble_eq_true rfl, [], rfl⟩
theorem cmp (a b : Byte) : Statement (.cmp a b) := ⟨rfl, rfl, Nat.le_of_ble_eq_true rfl, [], rfl⟩
theorem push (r : Byte) : Statement (.push r) := ⟨rfl, rfl, Nat.le_of_ble_eq_true rfl, [], rfl⟩
theorem pop (r : Byte) : Statement (.pop r) := ⟨rfl, rfl, Nat.le_of_ble_eq_true rfl, [], rfl⟩
theorem call (r : Byte) : Statement (.call r) := ⟨rfl, rfl, Nat.le_of_ble_eq_true rfl, [], rfl⟩
theorem ret : Statement .ret := ⟨rfl, rfl, Nat.le_of_ble_eq_true rfl, [], rfl⟩
theorem jmp (r : Byte) : Statement (.jmp r) := ⟨rfl, rfl, Nat.le_of_ble_eq_true rfl, [], rfl⟩
theorem jeq (r : Byte) : Statement (.jeq r) := ⟨rfl, rfl, Nat.le_of_ble_eq_true rfl, [], rfl⟩
theorem jne (r : Byte) : Statement (.jne r) := ⟨rfl, rfl, Nat.le_of_ble_eq_true rfl, [], rfl⟩

end Sys2Proof.Laws.EncodeShape
end

