-- ==== Sys2Proof/Laws/Step.lean ====
section
/-! SUPPORT. What a step can do, said once, and the unrolling of the *run* loop. -/

namespace Sys2Proof.Machine

variable {s t : State}

/-- Byte `k` from `pc` on, where it is in memory. -/
theorem State.byteOf_bytesAtPc (s : State) (k : Nat) :
    byteOf s.bytesAtPc k =
      if s.pc.toNat + k > 255 then .error (.missing k) else .ok (s.mem.read (s.pc.toNat + k)) := by
  unfold byteOf State.bytesAtPc Config.memSize
  by_cases h : s.pc.toNat + k > 255
  · rw [List.getElem?_eq_none (by simp; omega), if_pos h]
  · rw [List.getElem?_eq_getElem (by simp; omega), if_neg h]
    simp

/-- The fault a decoding error of the bytes at `pc` is taken as (R57, R52). -/
def State.trapOfDecodeError (s : State) : DecodeError → Trap
  | .unrecognized b => Trap.unrecognized b
  | .missing k => Trap.outOfBounds (s.pc.toNat + k)

/-- The machine's fetch, by `MemRead`, is the decoding of the bytes at `pc`, each error as its fault (R71). -/
theorem State.fetch_eq_decode (s : State) : s.fetch = (decode s.bytesAtPc).mapError s.trapOfDecodeError := by
  have read : ∀ k, s.memRead (s.pc.toNat + k) = (byteOf s.bytesAtPc k).mapError s.trapOfDecodeError := by
    intro k
    rw [s.byteOf_bytesAtPc]
    unfold State.memRead
    split <;> rfl
  unfold State.fetch decode decodeFrom
  simp only [read]
  cases byteOf s.bytesAtPc 0 with
  | error e => rfl
  | ok b =>
    simp only [Except.mapError, bind, Except.bind]
    rcases opcodeMap b with _ | f
    · rfl
    · cases f <;> simp <;> cases byteOf s.bytesAtPc 1 <;> simp <;> cases byteOf s.bytesAtPc 2 <;> simp

/-- While RUNNING a step executes the fetched instruction or takes the fault of its fetch (R71). -/
theorem step_of_running (h : s.status = .running) :
    step s = match s.fetch with
      | .ok i => exec i s
      | .error f => .next (s.raise f) := by
  cases hf : s.fetch <;> simp only [step, h, hf]

/-- The three ways to a next state: the machine was RUNNING, and it executed an instruction or took a fault (R22, R71). -/
theorem step_eq_next (h : step s = .next t) :
    s.status = .running ∧
      ((∃ i, s.fetch = .ok i ∧ exec i s = .next t) ∨ ∃ f, s.fetch = .error f ∧ t = s.raise f) := by
  unfold step at h
  split at h
  · cases h
  · cases h
  · cases h
  · rename_i hr
    split at h
    · exact ⟨hr, .inl ⟨_, ‹_›, h⟩⟩
    · cases h; exact ⟨hr, .inr ⟨_, ‹_›, rfl⟩⟩

@[simp] theorem State.runLoop_zero (s : State) : s.runLoop 0 = s := rfl

/-- One turn of the loop: a step while RUNNING (R70). -/
theorem State.runLoop_succ_of_next (n : Nat) (h : step s = .next t) : s.runLoop (n + 1) = t.runLoop n := by
  have hr := (step_eq_next h).1
  simp only [State.runLoop, hr, h]

/-- A state that is not RUNNING is where the loop has ended (R70). -/
theorem State.runLoop_of_stopped (n : Nat) (h : s.status ≠ .running) : s.runLoop n = s := by
  cases n with
  | zero => rfl
  | succ n => unfold State.runLoop; split <;> first | rfl | exact absurd ‹_› h

end Sys2Proof.Machine
end

