-- ==== Sys2Proof/Tests/Slice0.lean ====
section
/-! SUPPORT. The model's own tests: well-formedness, decoding of words written out from spec/30_encoding.md R55, one
step of each instruction with results from spec/95_test_vectors.md, the host's transactions, and for each statement of
Certificates/Slice0/Obligations.lean that has hypotheses a witness that meets them. -/

namespace Sys2Proof.Tests

open Sys2Proof Sys2Proof.Machine

/-- Reset, then RUNNING at `pc` with the bytes stored there. -/
def at' (pc : PcWord) (bytes : List Byte) : State :=
  { State.reset with pc := pc, status := .running, mem := Memory.writeFrom [] pc.toNat bytes }

/-- A register set. -/
def with' (s : State) (i : RegIndex) (v : Byte) : State := s.setReg i v

/-- A cell set. -/
def cell (s : State) (a : Nat) (v : Byte) : State := s.setMem (s.mem.write a v)

/-- The next state, if that is the outcome. -/
def next? : Outcome → Option State
  | .next t => some t
  | .fault _ => none
  | .refused _ => none

/-! ### Well-formedness (R53, R54) -/

theorem test_wf_refuses_ldi : (Instr.ldi 8 0).wellFormed = false := by decide
theorem test_wf_refuses_prn : (Instr.prn 8).wellFormed = false := by decide
theorem test_wf_refuses_mul : (Instr.mul 8 0).wellFormed = false ∧ (Instr.mul 0 8).wellFormed = false := by decide
theorem test_wf_refuses_add : (Instr.add 255 0).wellFormed = false ∧ (Instr.add 0 255).wellFormed = false := by decide
theorem test_wf_refuses_cmp : (Instr.cmp 8 0).wellFormed = false ∧ (Instr.cmp 0 8).wellFormed = false := by decide
theorem test_wf_refuses_push : (Instr.push 8).wellFormed = false := by decide
theorem test_wf_refuses_pop : (Instr.pop 8).wellFormed = false := by decide
theorem test_wf_refuses_call : (Instr.call 8).wellFormed = false := by decide
theorem test_wf_refuses_jmp : (Instr.jmp 8).wellFormed = false := by decide
theorem test_wf_refuses_jeq : (Instr.jeq 8).wellFormed = false := by decide
theorem test_wf_refuses_jne : (Instr.jne 8).wellFormed = false := by decide
theorem test_wf_admits : (Instr.ldi 7 255).wellFormed = true ∧ (Instr.mul 7 7).wellFormed = true ∧
    Instr.halt.wellFormed = true ∧ Instr.ret.wellFormed = true := by decide

/-! ### Decoding: each opcode's 8 bits as R55 writes them, operands as V-ENC has them -/

theorem test_decode_ldi : decode [0b10000010, 7, 255] = .ok (.ldi 7 255) := by rfl
theorem test_decode_prn : decode [0b01000111, 3] = .ok (.prn 3) := by rfl
theorem test_decode_halt : decode [0b00000001] = .ok .halt := by rfl
theorem test_decode_mul : decode [0b10100010, 0, 1] = .ok (.mul 0 1) := by rfl
theorem test_decode_add : decode [0b10100000, 2, 3] = .ok (.add 2 3) := by rfl
theorem test_decode_cmp : decode [0b10100111, 5, 6] = .ok (.cmp 5 6) := by rfl
theorem test_decode_push : decode [0b01000101, 0] = .ok (.push 0) := by rfl
theorem test_decode_pop : decode [0b01000110, 1] = .ok (.pop 1) := by rfl
theorem test_decode_call : decode [0b01010000, 1] = .ok (.call 1) := by rfl
theorem test_decode_ret : decode [0b00010001] = .ok .ret := by rfl
theorem test_decode_jmp : decode [0b01010100, 4] = .ok (.jmp 4) := by rfl
theorem test_decode_jeq : decode [0b01010101, 3] = .ok (.jeq 3) := by rfl
theorem test_decode_jne : decode [0b01010110, 3] = .ok (.jne 3) := by rfl

/-- V-ENC's decoder test: exactly 13 of the 256 opcode bytes are recognized. -/
theorem test_decode_thirteen :
    ((List.range 256).filter fun n => (opcodeMap (BitVec.ofNat 8 n)).isSome) =
      [0x01, 0x11, 0x45, 0x46, 0x47, 0x50, 0x54, 0x55, 0x56, 0x82, 0xA0, 0xA2, 0xA7] := by decide +kernel

/-- The last operand byte missing: the decoder says which. -/
theorem test_decode_missing : decode [0x82, 0x01] = .error (.missing 2) ∧ decode [0x45] = .error (.missing 1) ∧
    decode [] = .error (.missing 0) := ⟨rfl, rfl, rfl⟩

/-- A table word: the opcode is the least significant byte, `op1` the next, `op2` the last. -/
theorem test_table_word : decodeTableWord 24 0x080782 = some (.ldi 7 8) ∧ decodeTableWord 16 0x0345 = some (.push 3) ∧
    decodeTableWord 8 0x11 = some .ret ∧ decodeTableWord 8 0x00 = none := ⟨rfl, rfl, rfl, rfl⟩

/-- The machine runs a table word as its first instruction after reset. -/
theorem test_table_word_runs :
    (next? (step (State.reset.withFetchWord 24 0x080082))).map (fun t => (t.reg 0, t.pc, t.status)) =
      some (8, 3, .running) := by decide

/-! ### One step of each instruction (95_test_vectors.md, part 2) -/

/-- V-LDI: `82 07 80` moves the stack pointer. -/
theorem test_ldi_sp : (next? (step (at' 0 [0x82, 0x07, 0x80]))).map (fun t => (t.sp, t.pc)) = some (0x80, 3) := by decide

/-- V-LDI: at 253 it completes and leaves `pc = 256`. -/
theorem test_ldi_253 : (next? (step (at' 253 [0x82, 0x01, 0x07]))).map (fun t => (t.reg 1, t.pc)) = some (7, 256) := by
  decide

/-- V-PRN: the value 72 is emitted. -/
theorem test_prn : (next? (step (with' (at' 9 [0x47, 0x00]) 0 72))).map (fun t => (t.out, t.pc)) = some ([72], 11) := by
  decide

/-- V-PRN: at 255 the operand fetch faults and nothing is emitted. -/
theorem test_prn_255 : (next? (step (at' 255 [0x47]))).map (fun t => (t.out, t.fault)) =
    some ([], some ⟨.outOfBoundsAccess, 255, .number 256⟩) := by decide

/-- V-HALT: at 255 no operand byte is read. -/
theorem test_halt_255 : (next? (step (at' 255 [0x01]))).map (fun t => (t.status, t.pc)) = some (.halted, 255) := by decide

/-- V-MUL: 250 times 10 is 196 modulo 256. -/
theorem test_mul : (next? (step (with' (with' (at' 0 [0xA2, 0x00, 0x01]) 0 250) 1 10))).map (fun t => (t.reg 0, t.reg 1)) =
    some (196, 10) := by decide

/-- V-MUL: `MUL R2, R2` of 16 is 0. -/
theorem test_mul_same : (next? (step (with' (at' 0 [0xA2, 0x02, 0x02]) 2 16))).map (fun t => (t.reg 2, t.fl)) =
    some (0, ⟨false, false, false⟩) := by decide

/-- V-ADD: 250 and 10 give 4 (S2). -/
theorem test_add : (next? (step (with' (with' (at' 0 [0xA0, 0x00, 0x01]) 0 250) 1 10))).map (fun t => (t.reg 0, t.reg 1)) =
    some (4, 10) := by decide

/-- V-ADD: `ADD R7, R0` with 255 moves the stack pointer down by one. -/
theorem test_add_sp : (next? (step (with' (at' 0 [0xA0, 0x07, 0x00]) 0 255))).map (·.sp) = some 0xF3 := by decide

/-- V-CMP: 127 against 128 sets L: the comparison is unsigned. -/
theorem test_cmp_unsigned : (next? (step (with' (with' (at' 0 [0xA7, 0x00, 0x01]) 0 127) 1 128))).map (·.fl) =
    some ⟨false, true, false⟩ := by decide

/-- V-CMP: after L, a comparison of equals leaves E alone set. -/
theorem test_cmp_replaces : (next? (step ((at' 0 [0xA7, 0x04, 0x04]).setFlags ⟨false, true, false⟩))).map (·.fl) =
    some ⟨true, false, false⟩ := by decide

/-- V-STACK: a push at `sp = 0` wraps to `M[255]`. -/
theorem test_push_wraps : (next? (step (with' (with' (at' 0 [0x45, 0x00]) 7 0) 0 0xAB))).map
    (fun t => (t.sp, t.mem.read 255, t.pc)) = some (0xFF, 0xAB, 2) := by decide

/-- V-STACK: `PUSH R7` stores the decremented pointer. -/
theorem test_push_sp : (next? (step (at' 0 [0x45, 0x07]))).map (fun t => (t.sp, t.mem.read 0xF3)) =
    some (0xF3, 0xF3) := by decide

/-- V-STACK: a pop at `sp = 255` reads `M[255]` and wraps to 0. -/
theorem test_pop_wraps : (next? (step (cell (with' (at' 0 [0x46, 0x01]) 7 0xFF) 255 0xAB))).map
    (fun t => (t.reg 1, t.sp, t.mem.read 255)) = some (0xAB, 0x00, 0xAB) := by decide

/-- V-STACK: `POP R7` ends with the popped value. -/
theorem test_pop_sp : (next? (step (cell (with' (at' 0 [0x46, 0x07]) 7 0xF3) 0xF3 0x42))).map (·.sp) = some 0x42 := by
  decide

/-- V-CALL: at 253 the return address is 255, the largest. -/
theorem test_call_253 : (next? (step (with' (at' 253 [0x50, 0x00]) 0 9))).map
    (fun t => (t.pc, t.sp, t.mem.read 0xF3)) = some (9, 0xF3, 255) := by decide

/-- V-CALL: at 254 it faults and nothing else changes. -/
theorem test_call_254 : next? (step (with' (at' 254 [0x50, 0x00]) 0 9)) =
    some ((with' (at' 254 [0x50, 0x00]) 0 9).raise ⟨.outOfBoundsAccess, .number 256⟩) := by decide

/-- V-RET: at 255, `M[0xF3] = 7`. -/
theorem test_ret_255 : (next? (step (cell (with' (at' 255 [0x11]) 7 0xF3) 0xF3 7))).map (fun t => (t.pc, t.sp)) =
    some (7, 0xF4) := by decide

/-- V-RET: at `sp = 255` it reads `M[255]` and wraps. -/
theorem test_ret_wraps : (next? (step (cell (with' (at' 0 [0x11]) 7 0xFF) 255 2))).map (fun t => (t.pc, t.sp)) =
    some (2, 0x00) := by decide

/-- V-JMP: from 20 to 12. -/
theorem test_jmp : (next? (step (with' (at' 20 [0x54, 0x00]) 0 12))).map (·.pc) = some 12 := by decide

/-- V-JMP: at 255 the operand fetch faults. -/
theorem test_jmp_255 : (next? (step (at' 255 [0x54]))).map (·.fault) =
    some (some ⟨.outOfBoundsAccess, 255, .number 256⟩) := by decide

/-- V-JMP: `JEQ` taken with E set. -/
theorem test_jeq_taken : (next? (step ((with' (at' 19 [0x55, 0x03]) 3 22).setFlags ⟨true, false, false⟩))).map (·.pc) =
    some 22 := by decide

/-- V-JMP: `JEQ` with a bad operand byte faults although it would not jump. -/
theorem test_jeq_operand : (next? (step (at' 0 [0x55, 0x08]))).map (·.fault) =
    some (some ⟨.outOfBoundsAccess, 0, .number 8⟩) := by decide

/-- V-JMP: `JNE` jumps before any comparison. -/
theorem test_jne_reset : (next? (step (with' (at' 0 [0x56, 0x00]) 0 9))).map (·.pc) = some 9 := by decide

/-- V-JMP: `JNE` with E set falls through. -/
theorem test_jne_falls : (next? (step ((with' (at' 18 [0x56, 0x03]) 3 12).setFlags ⟨true, false, false⟩))).map (·.pc) =
    some 20 := by decide

/-! ### Faults and the host (V-FAULT, V-RESET, V-LOAD) -/

theorem test_fault_unrecognized : next? (step (at' 0 [0xFF])) =
    some ((at' 0 [0xFF]).raise ⟨.unrecognizedInstruction, .number 0xFF⟩) := by decide

theorem test_fault_first_operand : (next? (step (at' 0 [0xA2, 9, 8]))).map (·.fault) =
    some (some ⟨.outOfBoundsAccess, 0, .number 9⟩) := by decide

theorem test_fault_256 : (next? (step (at' 256 []))).map (·.fault) =
    some (some ⟨.outOfBoundsAccess, 256, .number 256⟩) := by decide

theorem test_load_keeps_the_rest : (next? ((cell (cell State.reset 1 0xBB) 2 0xCC).hostLoad [0x01, 0x02])).map
    (fun t => (t.mem.read 0, t.mem.read 1, t.mem.read 2, t.status)) = some (1, 2, 0xCC, .idle) := by decide

theorem test_load_257 : State.reset.hostLoad (List.replicate 257 0) = .refused .loadTooLong := by
  unfold State.hostLoad
  rw [if_neg (by decide), if_pos (Nat.lt_of_lt_of_eq (by decide) List.length_replicate.symm)]

/-- Without a *load* the first step after *run* faults on the opcode 0x00 (R183). -/
theorem test_run_empty : (State.reset.runFor 1).fault = some ⟨.unrecognizedInstruction, 0, .number 0⟩ := by decide

theorem test_inspect : State.reset.inspect (.reg 7) = .ok (.byte 0xF4) ∧
    State.reset.inspect (.reg 8) = .error .inspectOutOfRange ∧
    State.reset.inspect (.mem 256) = .error .inspectOutOfRange := ⟨rfl, rfl, rfl⟩

/-! ### Witnesses: for each statement with hypotheses, a state and operands that meet them -/

theorem test_meets_DecodeAcceptsExactlyTheEncodings : decode [0x82, 7, 255, 0x01] = .ok (.ldi 7 255) := by rfl

theorem test_meets_OpcodeByteAloneFixesTheLength :
    decode (0x82 :: [0, 8]) = .ok (.ldi 0 8) ∧ opcodeMap 0x83 = none ∧
      (at' 255 [0x83]).status = .running ∧ (at' 255 [0x83]).pc.toNat ≤ 255 ∧
      opcodeMap ((at' 255 [0x83]).mem.read (at' 255 [0x83]).pc.toNat) = none := ⟨rfl, rfl, rfl, by decide, rfl⟩

theorem test_meets_UnlistedOpcodeRaisesUnrecognized :
    (at' 255 [0x00]).status = .running ∧ (at' 255 [0x00]).pc.toNat ≤ 255 ∧
      (at' 255 [0x00]).mem.read (at' 255 [0x00]).pc.toNat ∉
        ([0x01, 0x11, 0x45, 0x46, 0x47, 0x50, 0x54, 0x55, 0x56, 0x82, 0xA0, 0xA2, 0xA7] : List Byte) := by decide

theorem test_meets_StepRunsTheDecodedInstruction :
    (at' 254 [0x45, 0x09]).status = .running ∧ decode (at' 254 [0x45, 0x09]).bytesAtPc = .ok (.push 9) := ⟨rfl, rfl⟩

theorem test_meets_FetchBeyondMemoryRaises_opcode : (at' 256 []).status = .running ∧ 255 < (at' 256 []).pc.toNat := by
  decide

theorem test_meets_FetchBeyondMemoryRaises_operands :
    opcodeMap ((at' 255 [0x45]).mem.read 255) = some (.r .push) ∧ 255 < 255 + (Format.r .push).operandCount ∧
    opcodeMap ((at' 254 [0xA2, 0]).mem.read 254) = some (.rr .mul) ∧ 255 < 254 + (Format.rr .mul).operandCount ∧
    opcodeMap ((at' 254 [0x82, 0]).mem.read 254) = some (.ri .ldi) ∧ 255 < 254 + (Format.ri .ldi).operandCount :=
  ⟨rfl, by decide, rfl, by decide, rfl, by decide⟩

theorem test_meets_IllegalRegisterByteRaises :
    7 < (8 : Byte).toNat ∧ Instr.jeq 8 ∈ [Instr.ldi 8 0, .prn 8, .push 8, .pop 8, .call 8, .jmp 8, .jeq 8, .jne 8] ∧
    (7 : Byte).toNat ≤ 7 ∧ Instr.mul 7 8 ∈ [Instr.mul 7 8, .add 7 8, .cmp 7 8] := by decide

theorem test_meets_StoppedMachineTakesNoStep :
    State.reset.status = .idle ∧ State.reset.halt.status = .halted ∧
      (State.reset.raise (Trap.unrecognized 0)).status = .faulted := by decide

theorem test_meets_RunEndsOnlyByHaltOrFault :
    (with' (at' 3 [0x54, 0x00]) 0 3).status = .running ∧
      decode (with' (at' 3 [0x54, 0x00]) 0 3).bytesAtPc = .ok (.jmp 0) ∧
      ((with' (at' 3 [0x54, 0x00]) 0 3).reg 0).toNat = (with' (at' 3 [0x54, 0x00]) 0 3).pc.toNat := ⟨rfl, rfl, rfl⟩

theorem test_meets_FaultsArePrecise : ∃ t, step (at' 0 [0xFF]) = .next t ∧ t.status = .faulted := ⟨_, rfl, rfl⟩

theorem test_meets_NoStepRaisesTheAluFault :
    ∃ t, (at' 0 [0x00]).fault = none ∧ step (at' 0 [0x00]) = .next t ∧ t.fault.isSome := ⟨_, rfl, rfl, rfl⟩

/-- The legal register bytes at both ends of their range, for every statement about an instruction's result. -/
theorem test_meets_register_bytes : (0 : Byte).toNat < 8 ∧ (7 : Byte).toNat < 8 := by decide

theorem test_meets_ImmediateIsTheWholeByteAndTargetsAreNot :
    ((at' 253 []).setFlags ⟨true, false, false⟩).fl.E = true ∧ (at' 253 []).fl.E = false ∧
      (at' 253 []).pc.toNat ≤ 253 ∧ ∀ r v, Instr.mul 7 0 ≠ .ldi r v :=
  ⟨rfl, rfl, by decide, fun _ _ h => by cases h⟩

theorem test_meets_StackPointerIsRegisterSeven :
    (7 : Byte).toNat < 8 ∧ (at' 253 []).mem.wf ∧ (6 : Byte) ≠ 7 ∧ (6 : Byte).toNat < 8 ∧ (at' 253 []).pc.toNat ≤ 253 ∧
      Completes (.call 7) (at' 253 []) ∧ (at' 253 []).status = .running :=
  ⟨by decide, by decide, by decide, by decide, by decide, ⟨rfl, fun _ _ => by decide⟩, rfl⟩

theorem test_meets_HaltStopsAndChangesNothingElse :
    (at' 255 [0x01]).status = .running ∧ (at' 255 [0x01]).pc.toNat ≤ 255 ∧
      (at' 255 [0x01]).mem.read (at' 255 [0x01]).pc.toNat = 0x01 := by decide

/-- The three clauses at values where they meet: 3 with 3, 2 with 3, 4 with 3. -/
theorem test_meets_CmpSetsTheFlagsOfTheComparison :
    ((with' State.reset 0 3).reg 0).toNat = ((with' State.reset 0 3).reg 0).toNat ∧
      ((with' (with' State.reset 0 2) 1 3).reg 0).toNat < ((with' (with' State.reset 0 2) 1 3).reg 1).toNat ∧
      ((with' (with' State.reset 0 4) 1 3).reg 1).toNat < ((with' (with' State.reset 0 4) 1 3).reg 0).toNat := by decide

theorem test_meets_CallPushesTheReturnAddressAndJumps : (at' 253 []).pc.toNat ≤ 253 := by decide

theorem test_meets_CallWithoutAReturnAddressRaises : (0 : Byte).toNat < 8 ∧ 253 < (at' 254 []).pc.toNat := by decide

theorem test_meets_RetPopsTheProgramCounter :
    (at' 255 [0x11]).status = .running ∧ (at' 255 [0x11]).pc.toNat ≤ 255 ∧
      (at' 255 [0x11]).mem.read (at' 255 [0x11]).pc.toNat = 0x11 ∧ (with' State.reset 7 255).sp = 255 ∧
      State.reset.mem.wf := by decide

theorem test_meets_JumpsGoToTheRegisterAndTestOnlyE :
    ∃ t, (⟨false, true, false⟩ : Flags).E = (at' 0 []).fl.E ∧ exec (.jne 0) (at' 0 []) = .next t := ⟨_, rfl, rfl⟩

/-- Each clause of the pc statement: every instruction with a legal operand, `CALL` on both sides of 253 and 254, and an
illegal form. -/
theorem test_meets_PcAfterEachInstruction :
    (∀ i ∈ [Instr.ldi 7 0, .mul 0 7, .add 0 7, .cmp 0 7, .prn 7, .push 7, .pop 7, .halt, .call 7, .ret, .jmp 7, .jeq 7,
      .jne 7], i.wellFormed = true ∧ ((next? (exec i (at' 253 []))).isSome)) ∧
      (at' 253 []).pc.toNat + 2 ≤ 255 ∧ 255 < (at' 254 []).pc.toNat + 2 ∧ (at' 254 []).pc.toNat ≤ 255 ∧
      (Instr.jmp 8).wellFormed = false ∧ (next? (exec (.jmp 8) (at' 255 []))).isSome := by decide

theorem test_meets_AccessPrimitivesCheckTheAddress : 255 < 256 ∧ 255 ≤ 255 ∧ (at' 0 [0x01]).mem.wf := by decide

theorem test_meets_LdiMulAddFrame :
    ∃ t, Instr.add 7 0 ∈ [Instr.ldi 7 0, .mul 7 0, .add 7 0] ∧ (Instr.add 7 0).wellFormed = true ∧
      exec (.add 7 0) State.reset = .next t := ⟨_, by decide, rfl, rfl⟩

theorem test_meets_PrnCmpHaltFrame :
    ∃ t, Instr.cmp 7 0 ∈ [Instr.prn 7, .cmp 7 0, .halt] ∧ (Instr.cmp 7 0).wellFormed = true ∧
      exec (.cmp 7 0) State.reset = .next t := ⟨_, by decide, rfl, rfl⟩

theorem test_meets_JumpFrame :
    ∃ t, Instr.jne 7 ∈ [Instr.jmp 7, .jeq 7, .jne 7] ∧ (Instr.jne 7).wellFormed = true ∧
      exec (.jne 7) State.reset = .next t := ⟨_, by decide, rfl, rfl⟩

theorem test_meets_PushCallFrame :
    ∃ t, Instr.call 7 ∈ [Instr.push 7, .call 7] ∧ Completes (.call 7) (at' 253 []) ∧
      (at' 253 []).pushAddress = 0xF3 ∧ exec (.call 7) (at' 253 []) = .next t :=
  ⟨_, by decide, ⟨rfl, fun _ _ => by decide⟩, rfl, rfl⟩

theorem test_meets_PopRetFrame :
    (∃ t, exec (.pop 7) State.reset = .next t) ∧ ∃ t, exec .ret State.reset = .next t := ⟨⟨_, rfl⟩, _, rfl⟩

theorem test_meets_OnlyCmpWritesTheFlags :
    (∃ t, exec (.push 9) State.reset = .next t) ∧ (∃ t, State.reset.hostLoad [1] = .next t) ∧
      (⟨false, false, true⟩ : Flags).E = State.reset.fl.E ∧ ∃ t, exec (.jeq 0) State.reset = .next t :=
  ⟨⟨_, rfl⟩, ⟨_, rfl⟩, rfl, _, rfl⟩

theorem test_meets_ExactlyOneFlagAfterComparison :
    (∃ t, step (at' 0 [0xA7, 7, 0]) = .next t) ∧ State.reset.fl = ⟨false, false, false⟩ := ⟨⟨_, rfl⟩, rfl⟩

theorem test_meets_OnlyStackInstructionsReachDataMemory :
    (∃ t, exec (.pop 0) State.reset = .next t) ∧
    Memory.read [(0, 1)] State.reset.sp.toNat = State.reset.mem.read State.reset.sp.toNat ∧
    (∃ t, exec (.call 0) State.reset = .next t) ∧ Completes (.push 0) State.reset ∧ Completes (.call 0) (at' 253 []) ∧
    State.reset.mem.wf ∧ Memory.wf [(0xF3, 1)] :=
  ⟨⟨_, rfl⟩, rfl, ⟨_, rfl⟩, ⟨rfl, by simp⟩, ⟨rfl, fun _ _ => by decide⟩, by decide, by decide⟩

theorem test_meets_OutputGrowsOnlyByPrn :
    (∃ t, step (at' 0 [0x47, 7]) = .next t) ∧ ∃ t, exec (.prn 7) State.reset = .next t := ⟨⟨_, rfl⟩, _, rfl⟩

/-- A `PUSH` or `CALL` that completes; and RUNNING states with the memory a push leaves, where the pushed byte is fetched
as a known opcode, as an unknown one, and as the operand of a `PRN` one byte below. -/
theorem test_meets_StoreIsSeenByALaterFetch :
    (Completes (.push 0) (at' 0 [0x45, 0x00]) ∧ Completes (.call 0) (at' 253 []) ∧ (at' 0 [0x45, 0x00]).mem.wf) ∧
    ((at' 0 [0x45, 0x00]).status = .running ∧ (at' 0 [0x45, 0x00]).fetch = .ok (.push 0)) ∧
    (∃ t, exec (.push 0) (with' (at' 0 []) 0 0x01) = .next t ∧ t.status = .running ∧
      ({ t with pc := 0xF3 } : State).pc.toNat + 0 = (at' 0 []).pushAddress ∧
      opcodeMap (t.mem.read 0xF3) = some (.z .halt)) ∧
    (∃ t, exec (.push 0) (at' 0 []) = .next t ∧ opcodeMap (t.mem.read (at' 0 []).pushAddress) = none) ∧
    ∃ t, exec (.push 0) (with' (cell (at' 0 []) 0xF2 0x47) 0 5) = .next t ∧
      ({ t with pc := 0xF2 } : State).pc.toNat + 1 = (at' 0 []).pushAddress ∧
      opcodeMap (t.mem.read 0xF2) = some (.r .prn) :=
  ⟨⟨⟨rfl, by simp⟩, ⟨rfl, fun _ _ => by decide⟩, by decide⟩, ⟨rfl, rfl⟩, ⟨_, rfl, rfl, rfl, rfl⟩, ⟨_, rfl, rfl⟩,
    _, rfl, rfl, rfl⟩

theorem test_meets_PushThenPopTransfersTheValue : State.reset.mem.wf ∧ (0 : Byte) ≠ 7 := by decide

theorem test_meets_RetReturnsToTheInstructionAfterTheCall :
    (at' 253 [0x50, 0x00]).mem.wf ∧ (at' 253 [0x50, 0x00]).pc.toNat ≤ 253 := by decide

/-- A RUNNING state with the invariant, from which a step reaches 256. -/
theorem test_meets_StepKeepsTheInvariant :
    (at' 253 [0x82, 7, 1]).Inv ∧ ∃ t, step (at' 253 [0x82, 7, 1]) = .next t ∧ t.pc.toNat = 256 := by
  refine ⟨⟨by decide, by decide, ?_, by decide, ?_, ?_⟩, _, rfl, rfl⟩
  · simp [at', State.reset, Flags.atMostOne]
  · simp [at', State.reset]
  · simp [at', State.reset]

theorem test_meets_HostTransactionsKeepTheInvariant : ∃ t, State.reset.hostLoad [0x01] = .next t := ⟨_, rfl⟩

theorem test_meets_PcReaches256OnlyPastTheLastByte :
    (at' 254 [0x47, 0]).pc.toNat ≤ 256 ∧ ∃ t, step (at' 254 [0x47, 0]) = .next t ∧ t.pc.toNat = 256 :=
  ⟨by decide, _, rfl, rfl⟩

theorem test_meets_ResetLeavesTheChosenValues : (6 : RegIndex) ≠ 7 := by decide

theorem test_meets_FirstLoadedByteIsTheFirstOpcode : (List.replicate 255 (0 : Byte)).length ≤ 255 ∧
    ([] : List Byte).length ≤ 255 ∧ decode (0x11 :: []) = .ok .ret := ⟨List.length_replicate.le, by decide, rfl⟩

theorem test_meets_LoadWritesTheProgramFromAddressZero :
    State.reset.status ≠ .running ∧ (List.replicate 256 (0 : Byte)).length ≤ 256 ∧ State.reset.mem.wf ∧
      256 < (List.replicate 257 (0 : Byte)).length ∧ (at' 0 []).status = .running :=
  ⟨by decide, List.length_replicate.le, by decide, Nat.lt_of_lt_of_eq (by decide) List.length_replicate.symm, rfl⟩

theorem test_meets_OnlyResetLeavesAStoppedMachine :
    State.reset.status = .idle ∧ (at' 0 []).status ≠ .idle ∧ (∃ t, State.reset.hostLoad [1] = .next t) ∧
      State.reset.halt.status = .halted := ⟨rfl, by decide, ⟨_, rfl⟩, rfl⟩

theorem test_meets_InspectReadsTheWholeState :
    State.reset.status ≠ .running ∧ 7 < 8 ∧ 255 ≤ 255 ∧ 255 < 256 ∧ (at' 0 []).status = .running := by decide

end Sys2Proof.Tests
end

/-! # What an instruction and a step can do

The layer the proofs below rest on: the bytes an instruction is decoded from, one equation per completed form, the one
relation `Effect` that lists them, and what a form that does not complete answers. -/

namespace Sys2Proof

/-! ### Decoded bytes -/

theorem byteOf_one_eq_ok {b x : Byte} {bs : List Byte} (h : byteOf (b :: bs) 1 = .ok x) :
    ∃ rest, bs = x :: rest := by
  rcases bs with _ | ⟨y, rest⟩ <;> cases h
  exact ⟨rest, rfl⟩

theorem byteOf_one_two_eq_ok {b x y : Byte} {bs : List Byte} (h₁ : byteOf (b :: bs) 1 = .ok x)
    (h₂ : byteOf (b :: bs) 2 = .ok y) : ∃ rest, bs = x :: y :: rest := by
  obtain ⟨cs, rfl⟩ := byteOf_one_eq_ok h₁
  rcases cs with _ | ⟨z, rest⟩ <;> cases h₂
  exact ⟨rest, rfl⟩

theorem decodeError_bind_eq_ok {α β : Type} {x : Except DecodeError α} {f : α → Except DecodeError β} {b : β}
    (h : x >>= f = .ok b) : ∃ a, x = .ok a ∧ f a = .ok b := by
  cases x with
  | error e => cases h
  | ok a => exact ⟨a, rfl, h⟩

/-- The bytes a row of the opcode map stands for: the opcode, then the operand bytes in order (R50). -/
def Format.Encodes (b : Byte) : Format → Prop
  | .z i => encode i = [b]
  | .r make => ∀ x, encode (make x) = [b, x]
  | .rr make => ∀ x y, encode (make x y) = [b, x, y]
  | .ri make => ∀ x y, encode (make x y) = [b, x, y]

theorem opcodeTable_encodes : ∀ row ∈ opcodeTable, row.2.Encodes row.1 := by
  simp [opcodeTable, Format.Encodes, encode, Instr.opcode, Instr.operandBytes]

theorem opcodeMap_encodes {b : Byte} {f : Format} (h : opcodeMap b = some f) : f.Encodes b :=
  opcodeTable_encodes (b, f) (opcodeMap_eq_some h)

theorem eq_append_of_two_operands {b : Byte} {bs : List Byte} {i : Instr} {make : Byte → Byte → Instr}
    (enc : ∀ x y, encode (make x y) = [b, x, y])
    (h : (byteOf (b :: bs) 1 >>= fun x => byteOf (b :: bs) 2 >>= fun y => .ok (make x y)) = .ok i) :
    ∃ rest, b :: bs = encode i ++ rest := by
  obtain ⟨x, hx, h⟩ := decodeError_bind_eq_ok h
  obtain ⟨y, hy, h⟩ := decodeError_bind_eq_ok h
  cases h
  obtain ⟨rest, rfl⟩ := byteOf_one_two_eq_ok hx hy
  exact ⟨rest, by rw [enc x y]; rfl⟩

/-- Bytes that decode to an instruction begin with its encoding (R50, R52). -/
theorem eq_encode_append_of_decode {bytes : List Byte} {i : Instr} (h : decode bytes = .ok i) :
    ∃ rest, bytes = encode i ++ rest := by
  rcases bytes with _ | ⟨b, bs⟩
  · cases h
  rw [decode_cons] at h
  rcases hf : opcodeMap b with _ | f <;> simp only [hf] at h
  · cases h
  have enc := opcodeMap_encodes hf
  cases f with
  | z j =>
    cases h
    exact ⟨bs, by rw [enc]; rfl⟩
  | r make =>
    obtain ⟨x, hx, h⟩ := decodeError_bind_eq_ok h
    cases h
    obtain ⟨rest, rfl⟩ := byteOf_one_eq_ok hx
    exact ⟨rest, by rw [enc x]; rfl⟩
  | rr make => exact eq_append_of_two_operands enc h
  | ri make => exact eq_append_of_two_operands enc h

theorem length_encode (i : Instr) : (encode i).length = i.width := by
  simp [encode, Instr.width, Nat.add_comm]

/-- An instruction has at least its opcode byte. -/
theorem Instr.width_pos (i : Instr) : 0 < i.width := by
  simp [Instr.width]

theorem width_le_of_decode {bytes : List Byte} {i : Instr} (h : decode bytes = .ok i) : i.width ≤ bytes.length := by
  obtain ⟨rest, rfl⟩ := eq_encode_append_of_decode h
  rw [List.length_append, length_encode]
  exact Nat.le_add_right _ _

end Sys2Proof

namespace Sys2Proof.Machine

variable {s t : State}

/-! ### Fetch -/

theorem State.fetch_eq_ok_iff {i : Instr} : s.fetch = .ok i ↔ decode s.bytesAtPc = .ok i := by
  rw [s.fetch_eq_decode]
  cases decode s.bytesAtPc <;> simp [Except.mapError]

/-- A fetch raises one of the first two causes (R52, R57). -/
theorem State.fetch_error_cause {f : Trap} (h : s.fetch = .error f) : f.cause ≠ .unsupportedALUOperation := by
  rw [s.fetch_eq_decode] at h
  rcases hd : decode s.bytesAtPc with e | i <;> rw [hd] at h <;> cases h
  cases e <;> simp [State.trapOfDecodeError, Trap.unrecognized, Trap.outOfBounds]

/-- A decoded instruction lies wholly in memory (R52). -/
theorem State.pc_add_width_le {i : Instr} (h : decode s.bytesAtPc = .ok i) : s.pc.toNat + i.width ≤ 256 := by
  have hlen := width_le_of_decode h
  have hpos := i.width_pos
  simp only [State.bytesAtPc, List.length_map, List.length_range, Config.memSize] at hlen
  omega

/-! ### The program counter's arithmetic -/

/-- From an address an instruction of at most three bytes is fetched at, `pc + k` is not reduced (R15). -/
theorem pc_add_toNat {pc : PcWord} {k : Nat} (hpc : pc.toNat ≤ 255) (hk : k ≤ 3) :
    (pc + BitVec.ofNat 9 k).toNat = pc.toNat + k := by
  simp only [BitVec.toNat_add, BitVec.toNat_ofNat]
  omega

/-- A byte as a jump target keeps its value (R16, R124). -/
@[simp] theorem target_toNat (v : Byte) : (v.setWidth 9).toNat = v.toNat := by
  simp only [BitVec.toNat_setWidth]
  have := v.isLt
  omega

/-! ### A push -/

/-- The state a push of `v` leaves: `sp` decremented, then `v` stored at the new `sp` (R100). -/
def State.pushed (s : State) (v : Byte) : State := s.decSp.setMem (s.mem.write s.pushAddress v)

theorem State.pushAddress_eq (s : State) : s.pushAddress = (s.sp - 1).toNat := by
  rw [State.pushAddress, State.decSp_sp]

theorem State.pushWith_eq_pushed (s : State) (value : State → Byte) :
    s.pushWith value = .ok (s.pushed (value s.decSp)) := by
  rw [s.pushWith_eq, State.pushed, s.pushAddress_eq]

section Pushed

variable (s) (v : Byte)

@[simp] theorem State.pushed_pc : (s.pushed v).pc = s.pc := rfl
@[simp] theorem State.pushed_fl : (s.pushed v).fl = s.fl := rfl
@[simp] theorem State.pushed_mem : (s.pushed v).mem = s.mem.write s.pushAddress v := rfl
@[simp] theorem State.pushed_status : (s.pushed v).status = s.status := rfl
@[simp] theorem State.pushed_fault : (s.pushed v).fault = s.fault := rfl
@[simp] theorem State.pushed_out : (s.pushed v).out = s.out := rfl
@[simp] theorem State.pushed_reg (j : RegIndex) : (s.pushed v).reg j = s.decSp.reg j := rfl
@[simp] theorem State.pushed_sp : (s.pushed v).sp = s.sp - 1 := s.decSp_sp

end Pushed

/-! ### One equation per instruction that completes -/

section Completed

variable (s) {r a b : Byte} (hr : r.toNat < 8) (ha : a.toNat < 8) (hb : b.toNat < 8)

theorem regOperands2_of_lt : regOperands2 a b = .ok (⟨a.toNat, ha⟩, ⟨b.toNat, hb⟩) := by
  simp [regOperands2, regOperand_of_lt ha, regOperand_of_lt hb, bind, Except.bind]

theorem State.jumpIf_of_lt (taken : Bool) :
    s.jumpIf taken r = .ok (if taken then s.jumpTo (s.reg ⟨r.toNat, hr⟩) else s.advance 2) := by
  simp [State.jumpIf, regOperand_of_lt hr, bind, Except.bind]

theorem exec_ldi (v : Byte) : exec (.ldi r v) s = .next ((s.setReg ⟨r.toNat, hr⟩ v).advance 3) := by
  simp [exec, execLdi, regOperand_of_lt hr, State.conclude, immediate, bind, Except.bind]

theorem exec_prn : exec (.prn r) s = .next ((s.emit (s.reg ⟨r.toNat, hr⟩)).advance 2) := by
  simp [exec, execPrn, regOperand_of_lt hr, State.conclude, bind, Except.bind]

theorem exec_halt : exec .halt s = .next s.halt := rfl

theorem exec_mul : exec (.mul a b) s =
    .next ((s.setReg ⟨a.toNat, ha⟩ (s.reg ⟨a.toNat, ha⟩ * s.reg ⟨b.toNat, hb⟩)).advance 3) := by
  simp [exec, execMul, regOperands2_of_lt ha hb, State.conclude, bind, Except.bind]

theorem exec_add : exec (.add a b) s =
    .next ((s.setReg ⟨a.toNat, ha⟩ (s.reg ⟨a.toNat, ha⟩ + s.reg ⟨b.toNat, hb⟩)).advance 3) := by
  simp [exec, execAdd, regOperands2_of_lt ha hb, alu, State.conclude, bind, Except.bind]

theorem exec_cmp : exec (.cmp a b) s =
    .next ((s.setFlags (compareFlags (s.reg ⟨a.toNat, ha⟩) (s.reg ⟨b.toNat, hb⟩))).advance 3) := by
  simp [exec, execCmp, regOperands2_of_lt ha hb, alu, State.conclude, bind, Except.bind]

theorem exec_push : exec (.push r) s = .next ((s.pushed (s.decSp.reg ⟨r.toNat, hr⟩)).advance 2) := by
  simp [exec, execPush, regOperand_of_lt hr, State.pushWith_eq_pushed, State.conclude, bind, Except.bind]

theorem exec_pop : exec (.pop r) s =
    .next ((s.incSp.setReg ⟨r.toNat, hr⟩ (s.mem.read s.sp.toNat)).advance 2) := by
  simp [exec, execPop, regOperand_of_lt hr, State.popByte_eq, State.conclude, bind, Except.bind]

theorem State.returnAddress_of_le (hpc : s.pc.toNat + 2 ≤ 255) :
    s.returnAddress = .ok (BitVec.ofNat 8 (s.pc.toNat + 2)) := if_neg (by omega)

theorem exec_call (hpc : s.pc.toNat + 2 ≤ 255) : exec (.call r) s =
    .next ((s.pushed (BitVec.ofNat 8 (s.pc.toNat + 2))).jumpTo (s.decSp.reg ⟨r.toNat, hr⟩)) := by
  simp [exec, execCall, regOperand_of_lt hr, s.returnAddress_of_le hpc, State.pushWith_eq_pushed, State.conclude, bind,
    Except.bind]

theorem exec_ret : exec .ret s = .next (s.incSp.jumpTo (s.mem.read s.sp.toNat)) := by
  simp [exec, execRet, State.popByte_eq, State.conclude, bind, Except.bind]

theorem exec_jmp : exec (.jmp r) s = .next (s.jumpTo (s.reg ⟨r.toNat, hr⟩)) := by
  simp [exec, execJmp, s.jumpIf_of_lt hr, State.conclude]

theorem exec_jeq : exec (.jeq r) s =
    .next (if s.fl.E then s.jumpTo (s.reg ⟨r.toNat, hr⟩) else s.advance 2) := by
  simp [exec, execJeq, s.jumpIf_of_lt hr, State.equalFlag, State.conclude]

theorem exec_jne : exec (.jne r) s =
    .next (if s.fl.E then s.advance 2 else s.jumpTo (s.reg ⟨r.toNat, hr⟩)) := by
  cases h : s.fl.E <;> simp [exec, execJne, s.jumpIf_of_lt hr, State.equalFlag, State.conclude, h]

end Completed

/-! ### The forms that complete, as one relation -/

/-- `Effect s i t`: from `s` the instruction `i` completes and leaves `t`. -/
inductive Effect (s : State) : Instr → State → Prop
  | ldi (r v : Byte) (hr : r.toNat < 8) : Effect s (.ldi r v) ((s.setReg ⟨r.toNat, hr⟩ v).advance 3)
  | prn (r : Byte) (hr : r.toNat < 8) : Effect s (.prn r) ((s.emit (s.reg ⟨r.toNat, hr⟩)).advance 2)
  | halt : Effect s .halt s.halt
  | mul (a b : Byte) (ha : a.toNat < 8) (hb : b.toNat < 8) : Effect s (.mul a b)
      ((s.setReg ⟨a.toNat, ha⟩ (s.reg ⟨a.toNat, ha⟩ * s.reg ⟨b.toNat, hb⟩)).advance 3)
  | add (a b : Byte) (ha : a.toNat < 8) (hb : b.toNat < 8) : Effect s (.add a b)
      ((s.setReg ⟨a.toNat, ha⟩ (s.reg ⟨a.toNat, ha⟩ + s.reg ⟨b.toNat, hb⟩)).advance 3)
  | cmp (a b : Byte) (ha : a.toNat < 8) (hb : b.toNat < 8) : Effect s (.cmp a b)
      ((s.setFlags (compareFlags (s.reg ⟨a.toNat, ha⟩) (s.reg ⟨b.toNat, hb⟩))).advance 3)
  | push (r : Byte) (hr : r.toNat < 8) : Effect s (.push r) ((s.pushed (s.decSp.reg ⟨r.toNat, hr⟩)).advance 2)
  | pop (r : Byte) (hr : r.toNat < 8) : Effect s (.pop r)
      ((s.incSp.setReg ⟨r.toNat, hr⟩ (s.mem.read s.sp.toNat)).advance 2)
  | call (r : Byte) (hr : r.toNat < 8) (hpc : s.pc.toNat + 2 ≤ 255) : Effect s (.call r)
      ((s.pushed (BitVec.ofNat 8 (s.pc.toNat + 2))).jumpTo (s.decSp.reg ⟨r.toNat, hr⟩))
  | ret : Effect s .ret (s.incSp.jumpTo (s.mem.read s.sp.toNat))
  | jmp (r : Byte) (hr : r.toNat < 8) : Effect s (.jmp r) (s.jumpTo (s.reg ⟨r.toNat, hr⟩))
  | jeqTaken (r : Byte) (hr : r.toNat < 8) (hE : s.fl.E = true) : Effect s (.jeq r) (s.jumpTo (s.reg ⟨r.toNat, hr⟩))
  | jeqPassed (r : Byte) (hr : r.toNat < 8) (hE : s.fl.E = false) : Effect s (.jeq r) (s.advance 2)
  | jneTaken (r : Byte) (hr : r.toNat < 8) (hE : s.fl.E = false) : Effect s (.jne r) (s.jumpTo (s.reg ⟨r.toNat, hr⟩))
  | jnePassed (r : Byte) (hr : r.toNat < 8) (hE : s.fl.E = true) : Effect s (.jne r) (s.advance 2)

variable {i : Instr}

/-- The relation is the machine's: what it lists is what `exec` answers. -/
theorem Effect.exec_eq (h : Effect s i t) : exec i s = .next t := by
  cases h with
  | ldi r v hr => exact exec_ldi s hr v
  | prn r hr => exact exec_prn s hr
  | halt => exact exec_halt s
  | mul a b ha hb => exact exec_mul s ha hb
  | add a b ha hb => exact exec_add s ha hb
  | cmp a b ha hb => exact exec_cmp s ha hb
  | push r hr => exact exec_push s hr
  | pop r hr => exact exec_pop s hr
  | call r hr hpc => exact exec_call s hr hpc
  | ret => exact exec_ret s
  | jmp r hr => exact exec_jmp s hr
  | jeqTaken r hr hE => rw [exec_jeq s hr, hE]; rfl
  | jeqPassed r hr hE => rw [exec_jeq s hr, hE]; rfl
  | jneTaken r hr hE => rw [exec_jne s hr, hE]; rfl
  | jnePassed r hr hE => rw [exec_jne s hr, hE]; rfl

theorem wellFormed_one {r : Byte} : ([r].all isRegByte) = true ↔ r.toNat < 8 := by
  simp [isRegByte_iff]

theorem wellFormed_two {a b : Byte} : ([a, b].all isRegByte) = true ↔ a.toNat < 8 ∧ b.toNat < 8 := by
  simp [isRegByte_iff]

theorem illFormed_one {r : Byte} : ([r].all isRegByte) = false ↔ ¬r.toNat < 8 := by
  rw [← wellFormed_one, Bool.not_eq_true]

theorem illFormed_two {a b : Byte} : ([a, b].all isRegByte) = false ↔ ¬(a.toNat < 8 ∧ b.toNat < 8) := by
  rw [← wellFormed_two, Bool.not_eq_true]

/-- Every form that completes is listed. -/
theorem exists_effect_of_completes (h : Completes i s) : ∃ t, Effect s i t := by
  obtain ⟨hw, hcall⟩ := h
  cases i with
  | ldi r v => exact ⟨_, .ldi r v (wellFormed_one.1 hw)⟩
  | prn r => exact ⟨_, .prn r (wellFormed_one.1 hw)⟩
  | halt => exact ⟨_, .halt⟩
  | mul a b => exact ⟨_, .mul a b (wellFormed_two.1 hw).1 (wellFormed_two.1 hw).2⟩
  | add a b => exact ⟨_, .add a b (wellFormed_two.1 hw).1 (wellFormed_two.1 hw).2⟩
  | cmp a b => exact ⟨_, .cmp a b (wellFormed_two.1 hw).1 (wellFormed_two.1 hw).2⟩
  | push r => exact ⟨_, .push r (wellFormed_one.1 hw)⟩
  | pop r => exact ⟨_, .pop r (wellFormed_one.1 hw)⟩
  | call r => exact ⟨_, .call r (wellFormed_one.1 hw) (hcall r rfl)⟩
  | ret => exact ⟨_, .ret⟩
  | jmp r => exact ⟨_, .jmp r (wellFormed_one.1 hw)⟩
  | jeq r =>
    cases hE : s.fl.E with
    | true => exact ⟨_, .jeqTaken r (wellFormed_one.1 hw) hE⟩
    | false => exact ⟨_, .jeqPassed r (wellFormed_one.1 hw) hE⟩
  | jne r =>
    cases hE : s.fl.E with
    | true => exact ⟨_, .jnePassed r (wellFormed_one.1 hw) hE⟩
    | false => exact ⟨_, .jneTaken r (wellFormed_one.1 hw) hE⟩

/-! ### The forms that do not complete -/

/-- An illegal register operand ends the instruction whatever was to follow (R53, R155). -/
theorem State.conclude_regOperand_of_ge (u : State) {r : Byte} (h : ¬r.toNat < 8) (g : RegIndex → Except Trap State) :
    u.conclude (regOperand r >>= g) = .next (u.raise (Trap.outOfBounds r.toNat)) := by
  rw [regOperand_of_ge h]; rfl

/-- The fault of an instruction with two register operands names the first illegal one (R53, R153). -/
theorem exists_conclude_regOperands2 {a b : Byte} (h : ¬(a.toNat < 8 ∧ b.toNat < 8)) :
    ∃ n, ∀ (u : State) (g : RegIndex × RegIndex → Except Trap State),
      u.conclude (regOperands2 a b >>= g) = .next (u.raise (Trap.outOfBounds n)) := by
  rcases regOperands2_cases a b with ⟨ha, hb, -⟩ | ⟨-, e⟩ | ⟨-, -, e⟩
  · exact absurd ⟨ha, hb⟩ h
  · exact ⟨a.toNat, fun u g => by rw [e]; rfl⟩
  · exact ⟨b.toNat, fun u g => by rw [e]; rfl⟩

/-- A `CALL` with a legal operand and no return address raises it (R111). -/
theorem exec_call_of_gt {r : Byte} (hr : r.toNat < 8) (hpc : 255 < s.pc.toNat + 2) :
    exec (.call r) s = .next (s.raise (Trap.outOfBounds (s.pc.toNat + 2))) := by
  have hback : s.returnAddress = .error (Trap.outOfBounds (s.pc.toNat + 2)) := if_pos hpc
  simp [exec, execCall, regOperand_of_lt hr, hback, State.conclude, bind, Except.bind]

/-- An instruction that is not well formed raises an `OutOfBoundsAccess` that its operands alone decide (R53). -/
theorem exec_of_not_wellFormed (h : i.wellFormed = false) :
    ∃ n, ∀ u : State, exec i u = .next (u.raise (Trap.outOfBounds n)) := by
  cases i with
  | ldi r v => exact ⟨r.toNat, fun u => u.conclude_regOperand_of_ge (illFormed_one.1 h) _⟩
  | prn r => exact ⟨r.toNat, fun u => u.conclude_regOperand_of_ge (illFormed_one.1 h) _⟩
  | halt => cases h
  | mul a b => exact (exists_conclude_regOperands2 (illFormed_two.1 h)).imp fun _ hn u => hn u _
  | add a b => exact (exists_conclude_regOperands2 (illFormed_two.1 h)).imp fun _ hn u => hn u _
  | cmp a b => exact (exists_conclude_regOperands2 (illFormed_two.1 h)).imp fun _ hn u => hn u _
  | push r => exact ⟨r.toNat, fun u => u.conclude_regOperand_of_ge (illFormed_one.1 h) _⟩
  | pop r => exact ⟨r.toNat, fun u => u.conclude_regOperand_of_ge (illFormed_one.1 h) _⟩
  | call r => exact ⟨r.toNat, fun u => u.conclude_regOperand_of_ge (illFormed_one.1 h) _⟩
  | ret => cases h
  | jmp r => exact ⟨r.toNat, fun u => u.conclude_regOperand_of_ge (illFormed_one.1 h) _⟩
  | jeq r => exact ⟨r.toNat, fun u => u.conclude_regOperand_of_ge (illFormed_one.1 h) _⟩
  | jne r => exact ⟨r.toNat, fun u => u.conclude_regOperand_of_ge (illFormed_one.1 h) _⟩

/-- A form that does not complete raises an `OutOfBoundsAccess` that only its operands and `pc` decide (R152). -/
theorem exec_of_not_completes (h : ¬Completes i s) :
    ∃ n, ∀ u : State, u.pc = s.pc → exec i u = .next (u.raise (Trap.outOfBounds n)) := by
  by_cases hw : i.wellFormed = true
  · obtain ⟨r, rfl, hpc⟩ : ∃ r, i = .call r ∧ ¬s.pc.toNat + 2 ≤ 255 := by
      simpa [Completes, hw] using h
    refine ⟨s.pc.toNat + 2, fun u hu => ?_⟩
    rw [← hu] at hpc ⊢
    exact exec_call_of_gt (wellFormed_one.1 hw) (not_le.1 hpc)
  · exact (exec_of_not_wellFormed (Bool.not_eq_true _ ▸ hw)).imp fun _ hn u _ => hn u

/-! ### The inversions: everything an instruction and a step can do -/

/-- A next state of an instruction is its effect, or a fault that any state at the same `pc` takes too. -/
theorem exec_cases (h : exec i s = .next t) :
    Effect s i t ∨ ¬Completes i s ∧ ∃ n, t = s.raise (Trap.outOfBounds n) ∧
      ∀ u : State, u.pc = s.pc → exec i u = .next (u.raise (Trap.outOfBounds n)) := by
  by_cases hc : Completes i s
  · obtain ⟨u, hu⟩ := exists_effect_of_completes hc
    cases hu.exec_eq.symm.trans h
    exact .inl hu
  · obtain ⟨n, hn⟩ := exec_of_not_completes hc
    cases (hn s rfl).symm.trans h
    exact .inr ⟨hc, n, rfl, hn⟩

theorem Effect.of_exec (hc : Completes i s) (h : exec i s = .next t) : Effect s i t :=
  (exec_cases h).resolve_right fun ⟨hn, _⟩ => hn hc

/-- A step of the machine is the effect of the instruction at `pc`, or a fault taken, never the ALU's (R71, R92). -/
theorem step_cases (h : step s = .next t) :
    s.status = .running ∧
      ((∃ i, decode s.bytesAtPc = .ok i ∧ Effect s i t) ∨
        ∃ f : Trap, f.cause ≠ .unsupportedALUOperation ∧ t = s.raise f) := by
  obtain ⟨hr, ⟨i, hf, hx⟩ | ⟨f, hf, rfl⟩⟩ := step_eq_next h
  · refine ⟨hr, (exec_cases hx).imp (fun he => ⟨i, State.fetch_eq_ok_iff.1 hf, he⟩) ?_⟩
    rintro ⟨-, n, rfl, -⟩
    exact ⟨Trap.outOfBounds n, by simp [Trap.outOfBounds], rfl⟩
  · exact ⟨hr, .inr ⟨f, State.fetch_error_cause hf, rfl⟩⟩

/-! ### What an effect does to each field -/

namespace Effect

theorem fault_eq (h : Effect s i t) : t.fault = s.fault := by
  cases h <;> rfl

theorem status_cases (h : Effect s i t) : t.status = s.status ∨ i = .halt ∧ t.status = .halted := by
  cases h with
  | halt => exact .inr ⟨rfl, rfl⟩
  | _ => exact .inl rfl

/-- Only `CMP` writes the flags (R18). -/
theorem fl_cases (h : Effect s i t) :
    t.fl = s.fl ∨ ∃ a b, i = .cmp a b ∧ ∃ va vb, t.fl = compareFlags va vb := by
  cases h with
  | cmp a b ha hb => exact .inr ⟨a, b, rfl, _, _, rfl⟩
  | _ => exact .inl rfl

/-- Only `PRN` writes the output (R24). -/
theorem out_cases (h : Effect s i t) :
    t.out = s.out ∨ ∃ (r : Byte) (hr : r.toNat < 8), i = .prn r ∧ t.out = s.out ++ [s.reg ⟨r.toNat, hr⟩] := by
  cases h with
  | prn r hr => exact .inr ⟨r, hr, rfl, rfl⟩
  | _ => exact .inl rfl

/-- Only `PUSH` and `CALL` write memory, one cell at the decremented `sp` (R21). -/
theorem mem_cases (h : Effect s i t) :
    t.mem = s.mem ∨ (∃ r, i = .push r ∨ i = .call r) ∧ ∃ v, t.mem = s.mem.write s.pushAddress v := by
  cases h with
  | push r hr => exact .inr ⟨⟨r, .inl rfl⟩, _, rfl⟩
  | call r hr hpc => exact .inr ⟨⟨r, .inr rfl⟩, _, rfl⟩
  | _ => exact .inl rfl

/-- An instruction in memory leaves `pc` right after it or at an address (R16). -/
theorem pc_cases (h : Effect s i t) (hw : s.pc.toNat + i.width ≤ 256) :
    t.pc.toNat = s.pc.toNat + i.width ∨ t.pc.toNat ≤ 255 := by
  have hpc : s.pc.toNat ≤ 255 := by have := i.width_pos; omega
  have jump : ∀ v : Byte, (v.setWidth 9).toNat ≤ 255 := fun v => by
    rw [target_toNat]; exact Nat.le_of_lt_succ v.isLt
  cases h with
  | ldi | mul | add | cmp => exact .inl (pc_add_toNat hpc (k := 3) le_rfl)
  | prn | push | pop | jeqPassed | jnePassed => exact .inl (pc_add_toNat hpc (k := 2) (by omega))
  | halt => exact .inr hpc
  | call | ret | jmp | jeqTaken | jneTaken => exact .inr (jump _)

end Effect

/-! ### The invariant -/

theorem compareFlags_exactlyOne (u v : Byte) : (compareFlags u v).exactlyOne := by
  rcases compareFlags_cases u v with ⟨-, h⟩ | ⟨-, h⟩ | ⟨-, h⟩ <;>
    simp [h, Flags.exactlyOne, Flags.atMostOne]

theorem State.Inv.raise (hs : s.Inv) {f : Trap} (hf : f.cause ≠ .unsupportedALUOperation) : (s.raise f).Inv where
  mem_wf := hs.mem_wf
  pc_le := hs.pc_le
  flags := hs.flags
  fault_iff := by simp
  fault_pc := by simp
  fault_cause := by simpa using hf

theorem Effect.mem_wf (h : Effect s i t) (hs : s.mem.wf) : t.mem.wf := by
  rcases h.mem_cases with hm | ⟨-, v, hm⟩
  · rwa [hm]
  · rw [hm]
    exact Memory.wf_write hs s.decSp.sp.isLt v

theorem Effect.atMostOne (h : Effect s i t) (hs : s.fl.atMostOne) : t.fl.atMostOne := by
  rcases h.fl_cases with hf | ⟨-, -, -, u, v, hf⟩
  · rwa [hf]
  · rw [hf]
    exact (compareFlags_exactlyOne u v).1

/-- An instruction in memory that completes keeps the invariant. -/
theorem Effect.inv (h : Effect s i t) (hs : s.Inv) (hr : s.status = .running) (hw : s.pc.toNat + i.width ≤ 256) :
    t.Inv := by
  have hnone : t.fault = none := by
    rw [h.fault_eq, ← Option.not_isSome_iff_eq_none, hs.fault_iff, hr]
    decide
  have hstatus : t.status ≠ .faulted := by
    rcases h.status_cases with ht | ⟨-, ht⟩ <;> simp [ht, hr]
  exact {
    mem_wf := h.mem_wf hs.mem_wf
    pc_le := by rcases h.pc_cases hw with hp | hp <;> omega
    flags := h.atMostOne hs.flags
    fault_iff := by simp [hnone, hstatus]
    fault_pc := by simp [hnone]
    fault_cause := by simp [hnone] }

/-! ### Register 7 by its operand byte -/

/-- An operand byte other than 7 names another register than `sp` (R12). -/
theorem spIndex_ne_of_ne_seven {r : Byte} (hr : r.toNat < 8) (h : r ≠ 7) :
    Config.spIndex ≠ (⟨r.toNat, hr⟩ : RegIndex) :=
  fun e => h (BitVec.eq_of_toNat_eq (congrArg Fin.val e).symm)

theorem State.read_pushed (hm : s.mem.wf) (v : Byte) : (s.pushed v).mem.read (s.pushed v).sp.toNat = v := by
  rw [State.pushed_mem, State.pushed_sp, State.pushAddress_eq]
  exact Memory.read_write_self hm _ v

/-! ### What an effect does not depend on -/

namespace Effect

/-- The flags, but for `CMP` that writes them and the E that `JEQ` and `JNE` test, are carried along (R18). -/
theorem with_fl (h : Effect s i t) {f : Flags} (hcmp : ∀ a b, i ≠ .cmp a b)
    (hE : ∀ r, i = .jeq r ∨ i = .jne r → f.E = s.fl.E) : Effect { s with fl := f } i { t with fl := f } := by
  cases h with
  | cmp a b ha hb => exact absurd rfl (hcmp a b)
  | call r hr hpc => exact .call r hr hpc
  | jeqTaken r hr h => exact .jeqTaken r hr ((hE r (.inl rfl)).trans h)
  | jeqPassed r hr h => exact .jeqPassed r hr ((hE r (.inl rfl)).trans h)
  | jneTaken r hr h => exact .jneTaken r hr ((hE r (.inr rfl)).trans h)
  | jnePassed r hr h => exact .jnePassed r hr ((hE r (.inr rfl)).trans h)
  | _ => constructor

/-- The output is carried along, what the instruction appends to it appended (R24). -/
theorem with_out (h : Effect s i t) :
    ∃ vs, t.out = s.out ++ vs ∧ ∀ o, Effect { s with out := o } i { t with out := o ++ vs } := by
  have keeps (hout : t.out = s.out) (hw : ∀ o, Effect { s with out := o } i { t with out := o }) :
      ∃ vs, t.out = s.out ++ vs ∧ ∀ o, Effect { s with out := o } i { t with out := o ++ vs } :=
    ⟨[], by simpa using hout, by simpa using hw⟩
  cases h with
  | prn r hr => exact ⟨[s.reg ⟨r.toNat, hr⟩], rfl, fun o => .prn r hr⟩
  | call r hr hpc => exact keeps rfl fun o => .call r hr hpc
  | jeqTaken r hr h => exact keeps rfl fun o => .jeqTaken r hr h
  | jeqPassed r hr h => exact keeps rfl fun o => .jeqPassed r hr h
  | jneTaken r hr h => exact keeps rfl fun o => .jneTaken r hr h
  | jnePassed r hr h => exact keeps rfl fun o => .jnePassed r hr h
  | _ => exact keeps rfl fun o => by constructor

/-- `PUSH` and `CALL` store the same byte in any memory (R21). -/
theorem with_mem_of_store (h : Effect s i t) {r : Byte} (hi : i = .push r ∨ i = .call r) :
    ∃ v, t.mem = s.mem.write s.pushAddress v ∧
      ∀ m : Memory, Effect { s with mem := m } i { t with mem := m.write s.pushAddress v } := by
  rcases hi with rfl | rfl
  · cases h with
    | push r hr => exact ⟨_, rfl, fun m => .push r hr⟩
  · cases h with
    | call r hr hpc => exact ⟨_, rfl, fun m => .call r hr hpc⟩

/-- Every other instruction carries memory along, provided `POP` and `RET` find the same byte at `sp` (R21). -/
theorem with_mem (h : Effect s i t) {m : Memory} (hstore : ∀ r, i ≠ .push r ∧ i ≠ .call r)
    (hload : (∃ r, i = .pop r) ∨ i = .ret → m.read s.sp.toNat = s.mem.read s.sp.toNat) :
    Effect { s with mem := m } i { t with mem := m } := by
  cases h with
  | push r => exact absurd rfl (hstore r).1
  | call r => exact absurd rfl (hstore r).2
  | pop r hr =>
    rw [← hload (.inl ⟨r, rfl⟩)]
    exact .pop (s := { s with mem := m }) r hr
  | ret =>
    rw [← hload (.inr rfl)]
    exact .ret (s := { s with mem := m })
  | jeqTaken r hr h => exact .jeqTaken r hr h
  | jeqPassed r hr h => exact .jeqPassed r hr h
  | jneTaken r hr h => exact .jneTaken r hr h
  | jnePassed r hr h => exact .jnePassed r hr h
  | _ => constructor

end Effect

/-! ### What any next state of an instruction keeps, faults included -/

theorem exec_fl_eq (hcmp : ∀ a b, i ≠ .cmp a b) (h : exec i s = .next t) : t.fl = s.fl := by
  rcases exec_cases h with he | ⟨-, n, rfl, -⟩
  · exact he.fl_cases.resolve_right fun ⟨a, b, e, _⟩ => hcmp a b e
  · rfl

theorem exec_mem_eq (hstore : ∀ r, i ≠ .push r ∧ i ≠ .call r) (h : exec i s = .next t) : t.mem = s.mem := by
  rcases exec_cases h with he | ⟨-, n, rfl, -⟩
  · exact he.mem_cases.resolve_right fun ⟨⟨r, e⟩, _⟩ => e.elim (hstore r).1 (hstore r).2
  · rfl

/-- No instruction changes a byte of memory but the one below the stack (R21). -/
theorem exec_sameMemoryBut (h : exec i s = .next t) : s.SameMemoryBut s.pushAddress t := by
  intro b hb
  rcases exec_cases h with he | ⟨-, n, rfl, -⟩
  · rcases he.mem_cases with e | ⟨-, v, e⟩ <;> rw [e]
    exact Memory.read_write_of_ne _ _ hb
  · rfl

/-- An instruction but `CMP` does the same under any flags with the E that a conditional jump tests (R18). -/
theorem exec_with_fl {f : Flags} (hcmp : ∀ a b, i ≠ .cmp a b) (hE : ∀ r, i = .jeq r ∨ i = .jne r → f.E = s.fl.E)
    (h : exec i s = .next t) : exec i { s with fl := f } = .next { t with fl := f } := by
  rcases exec_cases h with he | ⟨-, n, rfl, hn⟩
  · exact (he.with_fl hcmp hE).exec_eq
  · exact hn _ rfl

/-- An instruction that does not store does the same in any memory with the byte that is at `sp` (R21). -/
theorem exec_with_mem {m : Memory} (hstore : ∀ r, i ≠ .push r ∧ i ≠ .call r)
    (hload : (∃ r, i = .pop r) ∨ i = .ret → m.read s.sp.toNat = s.mem.read s.sp.toNat) (h : exec i s = .next t) :
    exec i { s with mem := m } = .next { t with mem := m } := by
  rcases exec_cases h with he | ⟨-, n, rfl, hn⟩
  · exact (he.with_mem hstore hload).exec_eq
  · exact hn _ rfl

/-- A store does the same in any memory: none, where it faults, or the same byte in each (R21). -/
theorem exec_with_mem_of_store {r : Byte} (hi : i = .push r ∨ i = .call r) (h : exec i s = .next t) :
    (t.mem = s.mem ∧ ∀ m : Memory, exec i { s with mem := m } = .next { t with mem := m }) ∨
      ∃ v, t.mem = s.mem.write s.pushAddress v ∧
        ∀ m : Memory, exec i { s with mem := m } = .next { t with mem := m.write s.pushAddress v } := by
  rcases exec_cases h with he | ⟨-, n, rfl, hn⟩
  · obtain ⟨v, hv, hw⟩ := he.with_mem_of_store hi
    exact .inr ⟨v, hv, fun m => (hw m).exec_eq⟩
  · exact .inl ⟨rfl, fun m => hn _ rfl⟩

/-- A store that completes leaves its byte in any two canonical memories (R21, R32). -/
theorem store_agrees {r : Byte} {m : Memory} (hi : i = .push r ∨ i = .call r) (hc : Completes i s) (hs : s.mem.wf)
    (hm : m.wf) :
    ∃ t m', exec i s = .next t ∧ exec i { s with mem := m } = .next { t with mem := m' } ∧
      m'.read s.pushAddress = t.mem.read s.pushAddress ∧ ∀ a, a ≠ s.pushAddress → m'.read a = m.read a := by
  obtain ⟨t, he⟩ := exists_effect_of_completes hc
  obtain ⟨v, hv, hw⟩ := he.with_mem_of_store hi
  refine ⟨t, _, he.exec_eq, (hw m).exec_eq, ?_, fun a ha => Memory.read_write_of_ne m v ha⟩
  rw [hv, Memory.read_write_self hs, Memory.read_write_self hm]

/-! ### The statements of the state's family -/

/-- Settles O41: a fault taken keeps the invariant, and so does the effect of an instruction that lies in memory. -/
theorem stepKeepsTheInvariant : Obligations.StepKeepsTheInvariant := by
  intro s t hs h
  obtain ⟨hr, ⟨i, hd, he⟩ | ⟨f, hf, rfl⟩⟩ := step_cases h
  · exact he.inv hs hr (State.pc_add_width_le hd)
  · exact hs.raise hf

/-- Settles O13: each form's equation, read at register 7. -/
theorem stackPointerIsRegisterSeven : Obligations.StackPointerIsRegisterSeven := by
  have seven : (7 : Byte).toNat < 8 := by decide
  refine ⟨fun s => rfl, fun v s => ⟨_, exec_ldi s seven v, State.setReg_sp s _ _⟩,
    fun b hb s => ⟨⟨_, exec_mul s seven hb, State.setReg_sp s _ _⟩, ⟨_, exec_add s seven hb, State.setReg_sp s _ _⟩⟩,
    fun s => ⟨_, exec_pop s seven, .inl (State.setReg_sp s.incSp _ _)⟩,
    fun r hr s => ⟨?push, fun h7 => ?pop, fun hpc => ?call⟩,
    fun s => ⟨_, exec_ret s, s.incSp_sp⟩, fun i s hc hr => ?completes⟩
  case push =>
    refine ⟨_, exec_push s hr, s.decSp_sp, fun hm h7 => ?_⟩
    exact (State.read_pushed hm _).trans (by rw [State.decSp_reg, if_neg (spIndex_ne_of_ne_seven hr h7)])
  case pop =>
    refine ⟨_, exec_pop s hr, ?_⟩
    rw [State.advance_sp, State.setReg_sp, if_neg (spIndex_ne_of_ne_seven hr h7).symm, State.incSp_sp]
  case call =>
    refine ⟨_, exec_call s hr (by omega), s.decSp_sp, fun hm => ?_⟩
    exact (congrArg BitVec.toNat (State.read_pushed hm _)).trans (by rw [BitVec.toNat_ofNat]; omega)
  case completes =>
    obtain ⟨t, he⟩ := exists_effect_of_completes hc
    refine ⟨t, he.exec_eq, ?_⟩
    rcases he.status_cases with ht | ⟨-, ht⟩ <;> simp [ht, hr]

/-- An instruction that can only fault on its operands completes when they are legal. -/
theorem Effect.of_exec_of_not_call (hw : i.wellFormed = true) (hcall : ∀ r, i ≠ .call r) (h : exec i s = .next t) :
    Effect s i t :=
  .of_exec ⟨hw, fun r e => absurd e (hcall r)⟩ h

/-- Settles O26: a form that completes has the `pc` of its effect, the others raise and leave it. -/
theorem pcAfterEachInstruction : Obligations.PcAfterEachInstruction := by
  intro i s t hpc h
  refine ⟨fun hw => ⟨fun r v a b hi => ?three, fun r hi => ?two, ?halt, ?call, ?callFault, ?ret, fun r hr => ?jumps⟩,
    fun hw => ?illFormed⟩
  case three =>
    have he : Effect s i t := .of_exec_of_not_call hw (by rintro _ rfl; simp at hi) h
    simp only [List.mem_cons, List.not_mem_nil, or_false] at hi
    rcases hi with rfl | rfl | rfl | rfl <;> cases he <;> exact pc_add_toNat hpc (k := 3) le_rfl
  case two =>
    have he : Effect s i t := .of_exec_of_not_call hw (by rintro _ rfl; simp at hi) h
    simp only [List.mem_cons, List.not_mem_nil, or_false] at hi
    rcases hi with rfl | rfl | rfl <;> cases he <;> exact pc_add_toNat hpc (k := 2) (by omega)
  case halt =>
    rintro rfl
    cases h
    rfl
  case call =>
    rintro r hr rfl hback
    cases (exec_call s hr hback).symm.trans h
    exact target_toNat _
  case callFault =>
    rintro r rfl hback
    cases (exec_call_of_gt (wellFormed_one.1 hw) hback).symm.trans h
    rfl
  case ret =>
    rintro rfl
    cases (exec_ret s).symm.trans h
    exact target_toNat _
  case jumps =>
    refine ⟨?_, ?_, ?_⟩ <;> rintro rfl
    · cases (exec_jmp s hr).symm.trans h
      exact target_toNat _
    · cases (exec_jeq s hr).symm.trans h
      split
      · exact target_toNat _
      · exact pc_add_toNat hpc (k := 2) (by omega)
    · cases (exec_jne s hr).symm.trans h
      split
      · exact pc_add_toNat hpc (k := 2) (by omega)
      · exact target_toNat _
  case illFormed =>
    obtain ⟨n, hn⟩ := exec_of_not_wellFormed hw
    cases (hn s).symm.trans h
    rfl

/-- Settles O34: the flags of an effect are the old ones or a comparison's, and any others are carried along. -/
theorem onlyCmpWritesTheFlags : Obligations.OnlyCmpWritesTheFlags := by
  refine ⟨fun i s t hi h => exec_fl_eq hi h, fun a b ha hb s f => ?_, fun s t bytes h => ?_, fun s => ?_,
    fun i s t f hj hc h => ?_, fun i r s t f hi hE h => ?_⟩
  · refine ⟨_, exec_cmp s ha hb, exec_cmp { s with fl := f } ha hb, ?_⟩
    simp [compareFlags, BitVec.toNat_inj]
  · obtain ⟨-, -, rfl⟩ := State.hostLoad_eq_next h
    rfl
  · unfold State.hostRun
    split <;> rfl
  · exact exec_with_fl hc (fun r e => (e.elim (hj r).1 (hj r).2).elim) h
  · have hcmp : ∀ a b, i ≠ .cmp a b := by
      rintro a b rfl
      simp at hi
    exact exec_with_fl hcmp (fun _ _ => hE) h

/-- Settles O35: `compareFlags` sets exactly one flag and every other effect keeps them. -/
theorem exactlyOneFlagAfterComparison : Obligations.ExactlyOneFlagAfterComparison := by
  refine ⟨rfl, fun a b s ha hb => ⟨_, exec_cmp s ha hb, compareFlags_exactlyOne _ _⟩, fun s t h => ?_,
    fun s r hr hfl => ⟨⟨_, (Effect.jeqPassed r hr (by rw [hfl])).exec_eq, rfl⟩,
      ⟨_, (Effect.jneTaken r hr (by rw [hfl])).exec_eq, target_toNat _⟩⟩⟩
  obtain ⟨-, ⟨i, hd, he⟩ | ⟨f, -, rfl⟩⟩ := step_cases h
  · rcases he.fl_cases with hf | ⟨a, b, rfl, va, vb, hf⟩
    · exact .inl hf
    · exact .inr ⟨hf ▸ compareFlags_exactlyOne va vb, a, b, hd⟩
  · exact .inl rfl

/-- Settles O36: `PUSH` and `CALL` store one byte that memory has no part in; the others carry memory along. -/
theorem onlyStackInstructionsReachDataMemory : Obligations.OnlyStackInstructionsReachDataMemory := by
  refine ⟨fun i s t hi h => exec_mem_eq hi h, fun i s t h => exec_sameMemoryBut h,
    fun i s t m hi hm h => exec_with_mem hi (fun _ => hm) h, fun i s t hpop hret h => ?_,
    fun i r s m hi hc hs hm => store_agrees (r := r) (by simpa using hi) hc hs hm⟩
  by_cases hi : ∃ r, i = .push r ∨ i = .call r
  · obtain ⟨r, hi⟩ := hi
    exact exec_with_mem_of_store hi h
  · have hstore : ∀ r, i ≠ .push r ∧ i ≠ .call r := by simpa using hi
    have hload : ¬((∃ r, i = .pop r) ∨ i = .ret) := by simp [hpop, hret]
    exact .inl ⟨exec_mem_eq hstore h, fun m => exec_with_mem hstore (fun hl => absurd hl hload) h⟩

/-- Settles O37: the effect appends what `PRN` emits and nothing else, and a fault leaves the output. -/
theorem outputGrowsOnlyByPrn : Obligations.OutputGrowsOnlyByPrn := by
  refine ⟨fun s t h => ?_, fun i s t o h => ?_⟩
  · obtain ⟨-, ⟨i, hd, he⟩ | ⟨f, -, rfl⟩⟩ := step_cases h
    · rcases he.out_cases with ho | ⟨r, hr, rfl, ho⟩
      · exact .inl ho
      · exact .inr ⟨r, hr, hd, ho⟩
    · exact .inl rfl
  · rcases exec_cases h with he | ⟨-, n, rfl, hn⟩
    · obtain ⟨vs, hvs, hw⟩ := he.with_out
      exact ⟨vs, hvs, (hw o).exec_eq⟩
    · exact ⟨[], (List.append_nil _).symm, by rw [List.append_nil]; exact hn _ rfl⟩

/-- Settles O44: only an instruction that ends at address 255 leads from below to 256. -/
theorem pcReaches256OnlyPastTheLastByte : Obligations.PcReaches256OnlyPastTheLastByte := by
  intro s t hs h
  obtain ⟨-, ⟨i, hd, he⟩ | ⟨f, -, rfl⟩⟩ := step_cases h
  · have hw := State.pc_add_width_le hd
    rcases he.pc_cases hw with hp | hp
    · exact ⟨by omega, fun h256 => .inr ⟨i, hd, by omega⟩⟩
    · exact ⟨by omega, fun h256 => by omega⟩
  · exact ⟨hs, .inl⟩

/-- Settles O8: in each stopped status `step` answers before it fetches. -/
theorem stoppedMachineTakesNoStep : Obligations.StoppedMachineTakesNoStep := by
  intro s
  refine ⟨fun h => ?_, fun h => ?_, fun h => ?_⟩ <;> simp [step, h]

/-- Settles O43: memory is empty, `pc` is 0, the flags are clear and no fault is recorded. -/
theorem resetMeetsTheInvariant : Obligations.ResetMeetsTheInvariant where
  mem_wf := State.reset_mem_wf
  pc_le := by decide
  flags := by simp [State.reset, Flags.atMostOne]
  fault_iff := by simp [State.reset]
  fault_pc := by simp [State.reset]
  fault_cause := by simp [State.reset]

/-- Settles O45: *reset* gives the reset state whatever the state was (R180). -/
theorem resetLeavesTheSourcesValues : Obligations.ResetLeavesTheSourcesValues :=
  fun _ => ⟨rfl, rfl, rfl⟩

end Sys2Proof.Machine

/-! # The memory's family

The access primitives by their bound, the instruction a known opcode byte makes of the bytes at `pc`, and what a
completing store leaves for a later fetch. -/

namespace Sys2Proof.Machine

variable {s t : State} {a : Nat}

/-! ### The access primitives -/

theorem State.memRead_of_le (s : State) (h : a ≤ 255) : s.memRead a = .ok (s.mem.read a) := if_neg (not_lt.2 h)

theorem State.memRead_of_gt (s : State) (h : 255 < a) : s.memRead a = .error (Trap.outOfBounds a) := if_pos h

theorem State.memWrite_of_le (s : State) (v : Byte) (h : a ≤ 255) :
    s.memWrite a v = .ok (s.setMem (s.mem.write a v)) := if_neg (not_lt.2 h)

theorem State.memWrite_of_gt (s : State) (v : Byte) (h : 255 < a) :
    s.memWrite a v = .error (Trap.outOfBounds a) := if_pos h

/-- A push stores at an address (R30, R100). -/
theorem State.pushAddress_le (s : State) : s.pushAddress ≤ 255 := Nat.le_of_lt_succ s.decSp.sp.isLt

/-! ### Fetching at a known and at an unknown opcode byte -/

/-- A known opcode byte whose operand bytes lie in memory is fetched as the instruction that those bytes, from `pc` up,
are the encoding of (R52, R71). -/
theorem State.exists_fetch_of_opcodeMap {f : Format} (hf : opcodeMap (s.mem.read s.pc.toNat) = some f)
    (hend : s.pc.toNat + f.operandCount ≤ 255) :
    ∃ i, s.fetch = .ok i ∧
      encode i = (List.range (f.operandCount + 1)).map fun k => s.mem.read (s.pc.toNat + k) := by
  have read : ∀ k ≤ f.operandCount, s.memRead (s.pc.toNat + k) = .ok (s.mem.read (s.pc.toNat + k)) :=
    fun k hk => s.memRead_of_le (by omega)
  have enc := opcodeMap_encodes hf
  have read₀ : s.memRead s.pc.toNat = .ok (s.mem.read s.pc.toNat) := read 0 (Nat.zero_le _)
  cases f with
  | z i => exact ⟨i, by simp [State.fetch, decodeFrom, read₀, hf, bind, Except.bind], enc⟩
  | r make =>
    refine ⟨make (s.mem.read (s.pc.toNat + 1)), ?_, enc _⟩
    simp [State.fetch, decodeFrom, read₀, read 1 le_rfl, hf, bind, Except.bind]
  | rr make | ri make =>
    refine ⟨make (s.mem.read (s.pc.toNat + 1)) (s.mem.read (s.pc.toNat + 2)), ?_, enc _ _⟩
    simp [State.fetch, decodeFrom, read₀, read 1 (Nat.le_succ 1), read 2 le_rfl, hf, bind, Except.bind]

/-- An unknown opcode byte at an address raises `UnrecognizedInstruction` of it (R57, R155). -/
theorem step_of_unknown (hr : s.status = .running) (hpc : s.pc.toNat ≤ 255)
    (hop : opcodeMap (s.mem.read s.pc.toNat) = none) :
    step s = .next (s.raise (Trap.unrecognized (s.mem.read s.pc.toNat))) := by
  have hfetch : s.fetch = .error (Trap.unrecognized (s.mem.read s.pc.toNat)) :=
    decodeFrom_of_unknown (s.memRead_of_le hpc) hop
  rw [step_of_running hr, hfetch]

theorem step_of_fetch {i : Instr} (hr : s.status = .running) (hf : s.fetch = .ok i) : step s = exec i s := by
  rw [step_of_running hr, hf]

/-- The instruction fetched at a known opcode byte is executed, and each byte it covers is the cell's (R42, R52). -/
theorem exists_step_of_opcodeMap {f : Format} {k : Nat} (hr : s.status = .running)
    (hf : opcodeMap (s.mem.read s.pc.toNat) = some f) (hk : k ≤ f.operandCount)
    (hend : s.pc.toNat + f.operandCount ≤ 255) :
    ∃ i, s.fetch = .ok i ∧ (encode i)[k]? = some (s.mem.read (s.pc.toNat + k)) ∧ step s = exec i s := by
  obtain ⟨i, hi, enc⟩ := State.exists_fetch_of_opcodeMap hf hend
  have hbyte : (encode i)[k]? = some (s.mem.read (s.pc.toNat + k)) := by
    simp [enc, List.getElem?_range (Nat.lt_succ_of_le hk)]
  exact ⟨i, hi, hbyte, step_of_fetch hr hi⟩

/-! ### What a store and a *load* leave in memory -/

/-- A completing `PUSH` or `CALL` leaves at the new `sp` the register's value or the return address (R101, R111). -/
theorem exists_effect_of_store {i : Instr} {r : Byte} (hr : r.toNat < 8) (hi : i ∈ [.push r, .call r])
    (hc : Completes i s) (hm : s.mem.wf) :
    ∃ t, Effect s i t ∧ (i = .push r → t.mem.read s.pushAddress = t.reg ⟨r.toNat, hr⟩) ∧
      (i = .call r → (t.mem.read s.pushAddress).toNat = s.pc.toNat + 2) := by
  have stored : ∀ v, (s.pushed v).mem.read s.pushAddress = v := Memory.read_write_self hm _
  obtain rfl | rfl : i = .push r ∨ i = .call r := by simpa using hi
  · exact ⟨_, .push r hr, fun _ => stored _, nofun⟩
  · have hpc := hc.2 r rfl
    refine ⟨_, .call r hr hpc, nofun, fun _ => (congrArg BitVec.toNat (stored _)).trans ?_⟩
    exact Nat.mod_eq_of_lt (Nat.lt_succ_of_le hpc)

/-- A *load* of at most 256 bytes into a machine that is not RUNNING is accepted (R40). -/
theorem State.hostLoad_of_le {bytes : List Byte} (hr : s.status ≠ .running) (hlen : bytes.length ≤ 256) :
    s.hostLoad bytes = .next (s.setMem (s.mem.writeFrom Config.loadBase bytes)) :=
  (if_neg hr).trans (if_neg (not_lt.2 hlen))

/-! ### The statements of the memory's family -/

/-- Settles O38: the stored byte is the cell's, and every later fetch of that address reads the cell. -/
theorem storeIsSeenByALaterFetch : Obligations.StoreIsSeenByALaterFetch := by
  intro i r hr s hi hc hm
  obtain ⟨t, he, hpush, hcall⟩ := exists_effect_of_store hr hi hc hm
  refine ⟨t, _, he.exec_eq, rfl, hpush, hcall, fun hs hf => (step_of_fetch hs hf).trans he.exec_eq,
    fun u k hmem haddr => ?_⟩
  have hcell : u.pc.toNat + k ≤ 255 := haddr ▸ s.pushAddress_le
  rw [← hmem, ← haddr]
  refine ⟨u.memRead_of_le hcell, fun f hu hf hk hend => exists_step_of_opcodeMap hu hf hk hend, ?_⟩
  rintro hu rfl hop
  exact step_of_unknown hu hcell hop

/-- Settles O48: the bytes are written one after the other from address 0, each to its own cell. -/
theorem loadWritesTheProgramFromAddressZero : Obligations.LoadWritesTheProgramFromAddressZero := by
  refine ⟨fun s bytes hr hlen hm => ⟨_, State.hostLoad_of_le hr hlen, rfl, fun a ha => ?_, fun a ha => ?_⟩,
    fun s bytes hr hlen => (if_neg hr).trans (if_pos hlen), fun s bytes hr => if_pos hr⟩
  · have hend : Config.loadBase + bytes.length ≤ Config.memSize := (Nat.zero_add _).trans_le hlen
    simpa [Config.loadBase] using Memory.read_writeFrom_self hm hend ha
  · exact Memory.read_writeFrom_of_ge _ _ ((Nat.zero_add _).trans_le ha)

/-- Settles O28: the bound decides each primitive, and the write is one cell's. -/
theorem accessPrimitivesCheckTheAddress : Obligations.AccessPrimitivesCheckTheAddress :=
  ⟨fun s _ h => s.memRead_of_gt h, fun s _ v h => s.memWrite_of_gt v h, fun s _ h => s.memRead_of_le h,
    fun s a v hm h => ⟨_, s.memWrite_of_le v h, rfl, Memory.read_write_self hm a v,
      fun _ hb => Memory.read_write_of_ne s.mem v hb⟩⟩

end Sys2Proof.Machine

/-! # The encoding's family

Decoding as the inverse of encoding, the opcode bytes the map lists, what a fetch answers at the first byte beyond
memory, and which illegal register byte an instruction reports. -/

namespace Sys2Proof

/-! ### The opcode map and the decoder -/

/-- Decoding reads back an encoding, whatever follows it (R50, R52). -/
theorem decode_encode_append (i : Instr) (rest : List Byte) : decode (encode i ++ rest) = .ok i := by
  cases i <;> rfl

/-- The map gives an instruction's opcode byte the number of its operand bytes (R55). -/
theorem opcodeMap_opcode_operandCount (i : Instr) :
    (opcodeMap i.opcode).map Format.operandCount = some i.operandBytes.length := by
  cases i <;> rfl

theorem Format.operandCount_le (f : Format) : f.operandCount ≤ 2 := by
  cases f <;> simp [Format.operandCount]

/-- The opcode byte gives the width, and it is at most 3 (R50, R51). -/
theorem opcodeMap_opcode_width (i : Instr) :
    (opcodeMap i.opcode).map (fun f => 1 + f.operandCount) = some i.width ∧ i.width ≤ 3 := by
  obtain ⟨f, hf, hcount⟩ := Option.map_eq_some_iff.1 (opcodeMap_opcode_operandCount i)
  have hle := f.operandCount_le
  rw [hf, Instr.width, ← hcount]
  exact ⟨rfl, by omega⟩

/-- The unrecognized opcode bytes are those in no row of the map (R57). -/
theorem opcodeMap_eq_none_iff {b : Byte} : opcodeMap b = none ↔ b ∉ opcodeTable.map Prod.fst := by
  simp only [opcodeMap, List.lookup_eq_none_iff, List.mem_map, not_exists, not_and, bne_iff_ne, ne_eq,
    eq_comm (a := b)]

/-- An operand byte that cannot be read ends the decoding, the bytes before it having been read (R52, R153). -/
theorem decodeFrom_of_noOperand {ε : Type} {read : Nat → Except ε Byte} {un : Byte → ε} {b : Byte} {f : Format}
    {k : Nat} {e : ε} (h₀ : read 0 = .ok b) (hf : opcodeMap b = some f) (hpos : 0 < k) (hk : k ≤ f.operandCount)
    (before : ∀ j < k, ∃ x, read j = .ok x) (he : read k = .error e) : decodeFrom read un = .error e := by
  obtain rfl | rfl : k = 1 ∨ k = 2 := by
    have := f.operandCount_le
    omega
  · cases f with
    | z i => cases hk
    | r make | rr make | ri make => simp [decodeFrom, h₀, hf, he, bind, Except.bind]
  · obtain ⟨x, hx⟩ := before 1 (by decide)
    cases f with
    | z i | r make => simp [Format.operandCount] at hk
    | rr make | ri make => simp [decodeFrom, h₀, hf, hx, he, bind, Except.bind]

end Sys2Proof

namespace Sys2Proof.Machine

variable {s : State} {i : Instr} {r a b : Byte}

/-! ### A fetch beyond memory -/

theorem step_of_fetch_error {f : Trap} (hr : s.status = .running) (hf : s.fetch = .error f) :
    step s = .next (s.raise f) := by
  rw [step_of_running hr, hf]

/-- No opcode byte is fetched above address 255 (R72). -/
theorem State.fetch_of_pc_gt (h : 255 < s.pc.toNat) : s.fetch = .error (Trap.outOfBounds s.pc.toNat) :=
  decodeFrom_of_noOpcode (s.memRead_of_gt h)

/-- The operand fetch that leaves memory leaves it at 256, the first address it cannot read (R52). -/
theorem State.fetch_of_operands_gt {f : Format} (hpc : s.pc.toNat ≤ 255)
    (hf : opcodeMap (s.mem.read s.pc.toNat) = some f) (hend : 255 < s.pc.toNat + f.operandCount) :
    s.fetch = .error (Trap.outOfBounds 256) := by
  have beyond : s.memRead (s.pc.toNat + (256 - s.pc.toNat)) = .error (Trap.outOfBounds 256) := by
    rw [show s.pc.toNat + (256 - s.pc.toNat) = 256 by omega]
    exact s.memRead_of_gt (by decide)
  exact decodeFrom_of_noOperand (s.memRead_of_le hpc) hf (by omega) (by omega)
    (fun j hj => ⟨_, s.memRead_of_le (by omega)⟩) beyond

/-! ### Illegal register operands -/

theorem regOperands2_of_ge_left (ha : ¬a.toNat < 8) (b : Byte) :
    regOperands2 a b = .error (Trap.outOfBounds a.toNat) := by
  rw [regOperands2, regOperand_of_ge ha]; rfl

theorem regOperands2_of_ge_right (ha : a.toNat < 8) (hb : ¬b.toNat < 8) :
    regOperands2 a b = .error (Trap.outOfBounds b.toNat) := by
  rw [regOperands2, regOperand_of_lt ha, regOperand_of_ge hb]; rfl

theorem State.conclude_regOperands2_error {f : Trap} (h : regOperands2 a b = .error f)
    (g : RegIndex × RegIndex → Except Trap State) : s.conclude (regOperands2 a b >>= g) = .next (s.raise f) := by
  rw [h]; rfl

/-- An illegal first register operand is the one reported, whatever else is wrong (R53, R153). -/
theorem exec_of_illegal_first {rs : List Byte} (hi : i.regOperands = r :: rs) (hr : ¬r.toNat < 8) :
    exec i s = .next (s.raise (Trap.outOfBounds r.toNat)) := by
  cases i with
  | halt | ret => cases hi
  | mul | add | cmp =>
    cases hi
    exact State.conclude_regOperands2_error (regOperands2_of_ge_left hr _) _
  | ldi | prn | push | pop | call | jmp | jeq | jne =>
    cases hi
    exact s.conclude_regOperand_of_ge hr _

/-- An illegal second register operand is reported when the first is legal (R53, R153). -/
theorem exec_of_illegal_second (hi : i.regOperands = [a, b]) (ha : a.toNat < 8) (hb : ¬b.toNat < 8) :
    exec i s = .next (s.raise (Trap.outOfBounds b.toNat)) := by
  cases i with
  | mul | add | cmp =>
    cases hi
    exact State.conclude_regOperands2_error (regOperands2_of_ge_right ha hb) _
  | ldi | prn | halt | push | pop | call | ret | jmp | jeq | jne => cases hi

/-! ### The statements of the encoding's family -/

/-- Settles O2: `decode_encode_append` one way, `eq_encode_append_of_decode` the other. -/
theorem decodeAcceptsExactlyTheEncodings : Obligations.DecodeAcceptsExactlyTheEncodings :=
  ⟨decode_encode_append, fun _ _ => eq_encode_append_of_decode⟩

/-- Settles O3: the count of an unrecognized byte is none and that of another is its row's; bytes that decode begin with
the instruction's own opcode byte. -/
theorem opcodeByteAloneFixesTheLength : Obligations.OpcodeByteAloneFixesTheLength := by
  refine ⟨fun b => ?counts, fun b ops i h => ?width, fun b ops hb => decodeFrom_of_unknown rfl hb,
    fun s hr hpc hop => ⟨_, step_of_unknown hr hpc hop, by simp⟩⟩
  case counts =>
    by_cases hb : b ∈ opcodeTable.map Prod.fst
    · fin_cases hb <;> rfl
    · have unlisted : ∀ l : List Byte, l ⊆ opcodeTable.map Prod.fst → b ∉ l := fun _ hl hm => hb (hl hm)
      rw [opcodeMap_eq_none_iff.2 hb, if_neg (unlisted _ (by decide)), if_neg (unlisted _ (by decide)),
        if_neg (unlisted _ (by decide))]
      rfl
  case width =>
    obtain ⟨rest, hbytes⟩ := eq_encode_append_of_decode h
    obtain ⟨rfl, -⟩ := List.cons.inj hbytes
    exact ⟨rfl, opcodeMap_opcode_width i⟩

/-- Settles O4: a byte outside the list is in no row of the map, so the step takes the fault of its fetch. -/
theorem unlistedOpcodeRaisesUnrecognized : Obligations.UnlistedOpcodeRaisesUnrecognized := by
  refine ⟨by decide +kernel, fun s hr hpc hop => step_of_unknown hr hpc (opcodeMap_eq_none_iff.2 fun hrow => hop ?_)⟩
  have listed : opcodeTable.map Prod.fst ⊆
    [0x01, 0x11, 0x45, 0x46, 0x47, 0x50, 0x54, 0x55, 0x56, 0x82, 0xA0, 0xA2, 0xA7] := by decide
  exact listed hrow

/-- Settles O6: the fetch, of the opcode byte or of an operand byte, is what faults. -/
theorem fetchBeyondMemoryRaises : Obligations.FetchBeyondMemoryRaises :=
  ⟨fun _ hr hpc => step_of_fetch_error hr (State.fetch_of_pc_gt hpc),
    fun _ _ hr hpc hf hend => step_of_fetch_error hr (State.fetch_of_operands_gt hpc hf hend)⟩

/-- Settles O7: the register operands are checked first, in their order. -/
theorem illegalRegisterByteRaises : Obligations.IllegalRegisterByteRaises := by
  refine ⟨fun i r v s hi hr => ?one, fun i a b s hi => ?two⟩
  case one =>
    have first : i.regOperands = [r] := by
      simp only [List.mem_cons, List.not_mem_nil, or_false] at hi
      rcases hi with rfl | rfl | rfl | rfl | rfl | rfl | rfl | rfl <;> rfl
    exact exec_of_illegal_first first (by omega)
  case two =>
    have both : i.regOperands = [a, b] := by
      simp only [List.mem_cons, List.not_mem_nil, or_false] at hi
      rcases hi with rfl | rfl | rfl <;> rfl
    exact ⟨fun ha => exec_of_illegal_first both (by omega),
      fun ha hb => exec_of_illegal_second both (by omega) (by omega)⟩

/-- Settles O12: `LDI`'s equation has `v` itself in it, and the equations of the jumps, `CALL` and `RET` a register's or
a cell's byte. -/
theorem immediateIsTheWholeByteAndTargetsAreNot : Obligations.ImmediateIsTheWholeByteAndTargetsAreNot := by
  refine ⟨fun r v hr s => ⟨_, exec_ldi s hr v, by simp⟩, fun r v => Bool.and_true _, fun i hi => ?operands,
    fun r hr s => ⟨⟨_, exec_jmp s hr, target_toNat _⟩,
      fun hE => ⟨_, (Effect.jeqTaken r hr hE).exec_eq, target_toNat _⟩,
      fun hE => ⟨_, (Effect.jneTaken r hr hE).exec_eq, target_toNat _⟩,
      fun hpc => ⟨_, exec_call s hr (by omega), .inr (target_toNat _)⟩⟩,
    fun s => ⟨_, exec_ret s, target_toNat _⟩⟩
  case operands =>
    cases i with
    | ldi r v => exact absurd rfl (hi r v)
    | prn | halt | mul | add | cmp | push | pop | call | ret | jmp | jeq | jne => rfl

end Sys2Proof.Machine

/-! # The execution cycle's family

A step of a RUNNING machine always reaches a next state, what the status of that state is, and what the *run* loop keeps
because every step keeps it. -/

namespace Sys2Proof.Machine

variable {s t : State}

/-! ### A step while RUNNING -/

/-- An instruction always ends in a next state: its effect, or its fault taken (R155). -/
theorem exists_exec_eq_next (i : Instr) (s : State) : ∃ t, exec i s = .next t := by
  by_cases hc : Completes i s
  · exact (exists_effect_of_completes hc).imp fun _ he => he.exec_eq
  · obtain ⟨n, hn⟩ := exec_of_not_completes hc
    exact ⟨_, hn s rfl⟩

/-- A RUNNING machine is never stuck (R71). -/
theorem exists_step_of_running (hr : s.status = .running) : ∃ t, step s = .next t := by
  cases hf : s.fetch with
  | ok i => exact (exists_exec_eq_next i s).imp fun _ h => (step_of_fetch hr hf).trans h
  | error f => exact ⟨_, step_of_fetch_error hr hf⟩

/-- A step executes the instruction that the bytes at `pc` decode to (R71). -/
theorem step_of_decode {i : Instr} (hr : s.status = .running) (hd : decode s.bytesAtPc = .ok i) : step s = exec i s :=
  step_of_fetch hr (State.fetch_eq_ok_iff.2 hd)

/-- Where a run that has started can be: it goes on, or it has ended in one of the two ways of R75. -/
def State.RunningOrEnded (s : State) : Prop :=
  s.status = .running ∨ s.status = .halted ∨ (s.status = .faulted ∧ s.fault.isSome)

theorem step_runningOrEnded (h : step s = .next t) : t.RunningOrEnded := by
  obtain ⟨hr, ⟨i, -, he⟩ | ⟨f, -, rfl⟩⟩ := step_cases h
  · rcases he.status_cases with hs | ⟨-, hs⟩
    · exact .inl (hs.trans hr)
    · exact .inr (.inl hs)
  · exact .inr (.inr ⟨rfl, rfl⟩)

/-- A step halts the machine exactly at a `HALT` (R82). -/
theorem step_halted_iff (h : step s = .next t) : t.status = .halted ↔ decode s.bytesAtPc = .ok .halt := by
  obtain ⟨hr, hcases⟩ := step_cases h
  constructor
  · intro ht
    obtain ⟨i, hd, he⟩ | ⟨f, -, rfl⟩ := hcases
    · rcases he.status_cases with hs | ⟨rfl, -⟩
      · simp [hs, hr] at ht
      · exact hd
    · cases ht
  · intro hd
    cases (step_of_decode hr hd).symm.trans h
    rfl

/-! ### The *run* loop -/

/-- What every step keeps, the loop keeps (R70). -/
theorem State.runLoop_keeps {P : State → Prop} (hstep : ∀ s t, P s → step s = .next t → P t) (n : Nat)
    (hs : P s) : P (s.runLoop n) := by
  induction n generalizing s with
  | zero => exact hs
  | succ n ih =>
    by_cases hr : s.status = .running
    · obtain ⟨t, ht⟩ := exists_step_of_running hr
      rw [State.runLoop_succ_of_next n ht]
      exact ih (hstep s t hs ht)
    · rwa [State.runLoop_of_stopped _ hr]

/-- A state that steps to itself is where the loop stays for ever (R75). -/
theorem State.runLoop_of_step_self (h : step s = .next s) (n : Nat) : s.runLoop n = s := by
  refine State.runLoop_keeps (P := (· = s)) (fun u t hu ht => ?_) n rfl
  subst hu
  cases h.symm.trans ht
  rfl

/-- A jump to where the machine is changes nothing (R16). -/
theorem State.jumpTo_eq_self {v : Byte} (h : v.toNat = s.pc.toNat) : s.jumpTo v = s := by
  have hpc : v.setWidth 9 = s.pc := BitVec.eq_of_toNat_eq ((target_toNat v).trans h)
  rw [State.jumpTo, hpc]
  rfl

theorem State.hostRun_of_idle (h : s.status = .idle) : s.hostRun = s.start := if_pos h

/-- *run* starts nothing outside IDLE (R70). -/
theorem State.hostRun_of_ne_idle (h : s.status ≠ .idle) : s.hostRun = s := if_neg h

/-- *run* of a machine that has ended follows no step (R22, R70). -/
theorem State.runFor_of_ended (n : Nat) (h : s.status = .halted ∨ s.status = .faulted) : s.runFor n = s := by
  have hidle : s.status ≠ .idle := by rcases h with h | h <;> simp [h]
  have hrunning : s.status ≠ .running := by rcases h with h | h <;> simp [h]
  rw [State.runFor, State.hostRun_of_ne_idle hidle, State.runLoop_of_stopped n hrunning]

/-! ### The statements of the execution cycle's family -/

/-- Settles O5: the machine's fetch is the decoding of the bytes at `pc`, and a step executes what it fetches. -/
theorem stepRunsTheDecodedInstruction : Obligations.StepRunsTheDecodedInstruction :=
  fun _ _ hr hd => step_of_decode hr hd

/-- Settles O9: a step always answers and leaves the machine running or ended, so the loop does; a `JMP` to itself steps
to the same state. -/
theorem runEndsOnlyByHaltOrFault : Obligations.RunEndsOnlyByHaltOrFault := by
  refine ⟨fun s hr => ?step, fun n s hr => ?loop, fun s r hlt hr hd haddr => ?selfJump⟩
  case step =>
    obtain ⟨t, ht⟩ := exists_step_of_running hr
    exact ⟨t, ht, step_halted_iff ht, step_runningOrEnded ht⟩
  case loop =>
    exact State.runLoop_keeps (P := State.RunningOrEnded) (fun _ _ _ ht => step_runningOrEnded ht) n (.inl hr)
  case selfJump =>
    have hself : step s = .next s := by
      rw [step_of_decode hr hd, exec_jmp s hlt, State.jumpTo_eq_self haddr]
    exact State.runLoop_of_step_self hself

/-- Settles O49: *run* acts only on IDLE, a *load* only on memory, and the loop only on RUNNING. -/
theorem onlyResetLeavesAStoppedMachine : Obligations.OnlyResetLeavesAStoppedMachine := by
  refine ⟨fun s h => State.hostRun_of_idle h, fun s h => State.hostRun_of_ne_idle h, fun s t bytes h => ?load,
    fun s n h => State.runFor_of_ended n h⟩
  case load =>
    obtain ⟨-, -, rfl⟩ := State.hostLoad_eq_next h
    exact ⟨rfl, rfl⟩

end Sys2Proof.Machine

/-! # The load, print and halt family

Which registers an instruction writes, so that every frame reads its registers off one lemma, what only `PRN` and only
`HALT` change, and the step at a one-byte instruction. -/

namespace Sys2Proof

/-- The registers an instruction that completes writes: its destination, and 7 where it moves `sp` (R12). -/
def Instr.writtenRegs : Instr → List Nat
  | .ldi r _ | .mul r _ | .add r _ => [r.toNat]
  | .pop r => [7, r.toNat]
  | .push _ | .call _ | .ret => [7]
  | .prn _ | .halt | .cmp _ _ | .jmp _ | .jeq _ | .jne _ => []

end Sys2Proof

namespace Sys2Proof.Machine

variable {s t : State} {i : Instr}

/-! ### The registers, the output and the status after an effect -/

/-- A write to another register is not seen (R10). -/
theorem State.setReg_reg_of_ne (s : State) {k j : RegIndex} (v : Byte) (h : j.val ≠ k.val) :
    (s.setReg k v).reg j = s.reg j := by
  rw [State.setReg_reg, if_neg fun e => h (congrArg Fin.val e.symm)]

/-- An effect writes no register but those of `Instr.writtenRegs`. -/
theorem Effect.reg_eq_of_not_written (h : Effect s i t) {j : RegIndex} (hj : j.val ∉ i.writtenRegs) :
    t.reg j = s.reg j := by
  cases h with
  | ldi | mul | add | push | call | ret => exact s.setReg_reg_of_ne _ (List.ne_of_not_mem_cons hj)
  | pop =>
    have hr := List.ne_of_not_mem_cons (List.not_mem_of_not_mem_cons hj)
    exact (s.incSp.setReg_reg_of_ne _ hr).trans (s.setReg_reg_of_ne _ (List.ne_of_not_mem_cons hj))
  | prn | halt | cmp | jmp | jeqTaken | jeqPassed | jneTaken | jnePassed => rfl

theorem Effect.sameRegsBut (h : Effect s i t) {is : List RegIndex}
    (hw : ∀ j : RegIndex, j.val ∈ i.writtenRegs → j ∈ is) : s.SameRegsBut is t :=
  fun j hj => h.reg_eq_of_not_written fun hm => hj (hw j hm)

theorem Effect.out_eq (h : Effect s i t) (hprn : ∀ r, i ≠ .prn r) : t.out = s.out :=
  h.out_cases.resolve_right fun ⟨r, _, e, _⟩ => hprn r e

theorem Effect.status_eq (h : Effect s i t) (hhalt : i ≠ .halt) : t.status = s.status :=
  h.status_cases.resolve_right fun ⟨e, _⟩ => hhalt e

theorem exec_sameMemory (hstore : ∀ r, i ≠ .push r ∧ i ≠ .call r) (h : exec i s = .next t) : s.SameMemory t :=
  fun a => by rw [exec_mem_eq hstore h]

/-! ### The step at a one-byte instruction -/

/-- An instruction of format Z needs no byte but its opcode, so it runs at every address, 255 included (R50, R52). -/
theorem step_of_formatZ (hr : s.status = .running) (hpc : s.pc.toNat ≤ 255)
    (hop : opcodeMap (s.mem.read s.pc.toNat) = some (.z i)) : step s = exec i s := by
  have hfetch : s.fetch = .ok i := by
    simp [State.fetch, decodeFrom, s.memRead_of_le hpc, hop, bind, Except.bind]
  exact step_of_fetch hr hfetch

/-! ### The statements of the load, print and halt family -/

/-- Settles O29: the destination is the only register written, and none of the three is a `CMP`, a store, a `PRN` or a
`HALT`. -/
theorem ldiMulAddFrame : Obligations.LdiMulAddFrame := by
  intro i d x hd s t hi hw h
  simp only [List.mem_cons, List.not_mem_nil, or_false] at hi
  obtain ⟨hdest, hcmp, hstore, hprn, hhalt⟩ : i.writtenRegs = [d.toNat] ∧ (∀ a b, i ≠ .cmp a b) ∧
      (∀ r, i ≠ .push r ∧ i ≠ .call r) ∧ (∀ r, i ≠ .prn r) ∧ i ≠ .halt := by
    rcases hi with rfl | rfl | rfl <;> exact ⟨rfl, nofun, fun _ => ⟨nofun, nofun⟩, nofun, nofun⟩
  have he : Effect s i t := .of_exec_of_not_call hw (fun r => (hstore r).2) h
  have hregs : s.SameRegsBut [⟨d.toNat, hd⟩] t := he.sameRegsBut fun j hj => by
    simpa [hdest, Fin.ext_iff] using hj
  exact ⟨hregs, exec_fl_eq hcmp h, exec_sameMemory hstore h, he.out_eq hprn, he.status_eq hhalt, he.fault_eq⟩

/-- Settles O30: none of the three writes a register or stores, and what one of them writes the others leave. -/
theorem prnCmpHaltFrame : Obligations.PrnCmpHaltFrame := by
  intro i a b s t hi hw h
  simp only [List.mem_cons, List.not_mem_nil, or_false] at hi
  obtain ⟨hnone, hstore⟩ : i.writtenRegs = [] ∧ ∀ r, i ≠ .push r ∧ i ≠ .call r := by
    rcases hi with rfl | rfl | rfl <;> exact ⟨rfl, fun _ => ⟨nofun, nofun⟩⟩
  have he : Effect s i t := .of_exec_of_not_call hw (fun r => (hstore r).2) h
  have hregs : s.SameRegsBut [] t := he.sameRegsBut fun j => by simp [hnone]
  refine ⟨hregs, exec_sameMemory hstore h, he.fault_eq, fun hcmp => exec_fl_eq ?_ h, fun hprn => he.out_eq ?_,
    he.status_eq⟩
  · rcases hi with rfl | rfl | rfl
    exacts [nofun, absurd rfl hcmp, nofun]
  · rcases hi with rfl | rfl | rfl
    exacts [absurd rfl hprn, nofun, nofun]

/-- Settles O14: `exec_ldi`, with `setReg` and `advance` written out. -/
theorem ldiLoadsTheImmediate : Obligations.LdiLoadsTheImmediate :=
  fun _ v hr s => exec_ldi s hr v

/-- Settles O15: `exec_prn`, with `emit` and `advance` written out. -/
theorem prnEmitsTheRegister : Obligations.PrnEmitsTheRegister :=
  fun _ hr s => exec_prn s hr

/-- Settles O16: byte `01` is the opcode of `HALT`, which has no operand byte to fetch. -/
theorem haltStopsAndChangesNothingElse : Obligations.HaltStopsAndChangesNothingElse := by
  refine ⟨exec_halt, fun s hr hpc hbyte => ?_⟩
  have hop : opcodeMap (s.mem.read s.pc.toNat) = some (.z .halt) := by rw [hbyte]; rfl
  rw [step_of_formatZ hr hpc hop]
  exact exec_halt s

end Sys2Proof.Machine

/-! # The arithmetic family

The byte operations as natural numbers modulo 256, each outcome of a comparison from its own condition, and the
statements about `MUL`, `ADD`, `CMP` and the ALU they share. -/

namespace Sys2Proof.Machine

/-! ### Bytes as numbers modulo 256 -/

theorem mul_eq_ofNat_mod (u v : Byte) : u * v = BitVec.ofNat 8 (u.toNat * v.toNat % 256) :=
  BitVec.eq_of_toNat_eq (by simp)

theorem add_eq_ofNat_mod (u v : Byte) : u + v = BitVec.ofNat 8 ((u.toNat + v.toNat) % 256) :=
  BitVec.eq_of_toNat_eq (by simp)

/-! ### The outcomes of a comparison -/

section Comparison

variable {u v : Byte}

theorem compareFlags_of_eq (h : u.toNat = v.toNat) : compareFlags u v = ⟨true, false, false⟩ := by
  rcases compareFlags_cases u v with ⟨-, e⟩ | ⟨hlt, -⟩ | ⟨hgt, -⟩
  · exact e
  · exact absurd h hlt.ne
  · exact absurd h hgt.ne'

theorem compareFlags_of_lt (h : u.toNat < v.toNat) : compareFlags u v = ⟨false, true, false⟩ := by
  rcases compareFlags_cases u v with ⟨heq, -⟩ | ⟨-, e⟩ | ⟨hgt, -⟩
  · exact absurd heq h.ne
  · exact e
  · exact absurd hgt h.not_gt

theorem compareFlags_of_gt (h : v.toNat < u.toNat) : compareFlags u v = ⟨false, false, true⟩ := by
  rcases compareFlags_cases u v with ⟨heq, -⟩ | ⟨hlt, -⟩ | ⟨-, e⟩
  · exact absurd heq h.ne'
  · exact absurd hlt h.not_gt
  · exact e

end Comparison

/-! ### The statements of the arithmetic family -/

/-- Settles O11: an effect keeps the absence of a fault, and the fault a step takes is never the ALU's. -/
theorem noStepRaisesTheAluFault : Obligations.NoStepRaisesTheAluFault := by
  intro s t hs h g hg
  obtain ⟨-, ⟨i, -, he⟩ | ⟨f, hf, rfl⟩⟩ := step_cases h
  · simp [he.fault_eq, hs] at hg
  · cases hg
    exact hf

/-- Settles O17: `exec_mul`, with the product of the bytes as a number. -/
theorem mulWritesTheProductModulo256 : Obligations.MulWritesTheProductModulo256 := by
  intro a b ha hb s
  rw [← mul_eq_ofNat_mod]
  exact exec_mul s ha hb

/-- Settles O18: `exec_add`, with the sum of the bytes as a number. -/
theorem addWritesTheSumModulo256 : Obligations.AddWritesTheSumModulo256 := by
  intro a b ha hb s
  rw [← add_eq_ofNat_mod]
  exact exec_add s ha hb

/-- Settles O19: `exec_cmp`, with the flags of each outcome of the comparison. -/
theorem cmpSetsTheFlagsOfTheComparison : Obligations.CmpSetsTheFlagsOfTheComparison := by
  intro a b ha hb s
  refine ⟨fun h => ?_, fun h => ?_, fun h => ?_⟩
  · rw [← compareFlags_of_eq h]
    exact exec_cmp s ha hb
  · rw [← compareFlags_of_lt h]
    exact exec_cmp s ha hb
  · rw [← compareFlags_of_gt h]
    exact exec_cmp s ha hb

/-- Settles O27: the sum of the bytes as a number for `ADD`; `CMP` and the other names by the ALU's definition. -/
theorem aluHasExactlyTwoOperations : Obligations.AluHasExactlyTwoOperations := by
  refine ⟨fun a b s => ?add, fun va vb s => rfl, fun name s => rfl⟩
  case add =>
    rw [← add_eq_ofNat_mod]
    rfl

end Sys2Proof.Machine

/-! # The stack's family

Register 7 as an operand byte, what a `PUSH` leaves at the new `sp` and a `POP` takes from it, and the statements about
`PUSH`, `POP` and the frames they share with `CALL` and `RET`. -/

namespace Sys2Proof.Machine

variable {s t : State} {r : Byte}

/-! ### An operand register around a move of `sp` -/

/-- The operand byte 7, and no other, names `sp` (R12). -/
theorem spIndex_eq_iff (hr : r.toNat < 8) : Config.spIndex = (⟨r.toNat, hr⟩ : RegIndex) ↔ r = 7 := by
  constructor
  · exact not_imp_not.1 (spIndex_ne_of_ne_seven hr)
  · rintro rfl
    rfl

/-- Read after the decrement, the operand 7 is the decremented `sp` and any other is as before (R101, D15). -/
theorem State.decSp_reg_operand (s : State) (hr : r.toNat < 8) :
    s.decSp.reg ⟨r.toNat, hr⟩ = if r = 7 then s.sp - 1 else s.reg ⟨r.toNat, hr⟩ := by
  simp only [State.decSp_reg, spIndex_eq_iff hr]

/-- A completing `PUSH` leaves at the new `sp` what its operand then holds, the operand itself kept unless it is 7
(R101). -/
theorem exists_exec_push (hr : r.toNat < 8) (hm : s.mem.wf) :
    ∃ t, exec (.push r) s = .next t ∧ t.sp = s.sp - 1 ∧ t.mem.read t.sp.toNat = t.reg ⟨r.toNat, hr⟩ ∧
      (r ≠ 7 → t.reg ⟨r.toNat, hr⟩ = s.reg ⟨r.toNat, hr⟩) :=
  ⟨_, exec_push s hr, s.decSp_sp, State.read_pushed hm _, fun h7 => (s.decSp_reg_operand hr).trans (if_neg h7)⟩

/-- A completing `POP` leaves in its operand the byte at `sp`, and `sp` one higher unless the operand is 7 (R102). -/
theorem exists_exec_pop (s : State) (hr : r.toNat < 8) :
    ∃ t, exec (.pop r) s = .next t ∧ t.reg ⟨r.toNat, hr⟩ = s.mem.read s.sp.toNat ∧ (r ≠ 7 → t.sp = s.sp + 1) := by
  refine ⟨_, exec_pop s hr, ?_, fun h7 => ?_⟩
  · rw [State.advance_reg, State.setReg_reg, if_pos rfl]
  · rw [State.advance_sp, State.setReg_sp, if_neg (spIndex_ne_of_ne_seven hr h7).symm, State.incSp_sp]

/-! ### The frame of the instructions that read the stack -/

/-- `POP` and `RET` change registers and `pc` only (R102, R112). -/
theorem Effect.load_frame {i : Instr} {is : List RegIndex} (hi : (∃ r, i = .pop r) ∨ i = .ret) (he : Effect s i t)
    (hw : ∀ j : RegIndex, j.val ∈ i.writtenRegs → j ∈ is) :
    s.SameRegsBut is t ∧ t.fl = s.fl ∧ s.SameMemory t ∧ t.out = s.out ∧ t.status = s.status ∧ t.fault = s.fault := by
  obtain ⟨hcmp, hstore, hprn, hhalt⟩ : (∀ a b, i ≠ .cmp a b) ∧ (∀ r, i ≠ .push r ∧ i ≠ .call r) ∧
      (∀ r, i ≠ .prn r) ∧ i ≠ .halt := by
    rcases hi with ⟨r, rfl⟩ | rfl <;> exact ⟨nofun, fun _ => ⟨nofun, nofun⟩, nofun, nofun⟩
  exact ⟨he.sameRegsBut hw, exec_fl_eq hcmp he.exec_eq, exec_sameMemory hstore he.exec_eq, he.out_eq hprn,
    he.status_eq hhalt, he.fault_eq⟩

/-! ### The statements of the stack's family -/

/-- Settles O20: `exec_push`, with the operand read after the decrement and the cell's address written out. -/
theorem pushStoresTheRegisterBelowTheStack : Obligations.PushStoresTheRegisterBelowTheStack := by
  intro r hr s
  rw [← s.decSp_reg_operand hr, ← s.pushAddress_eq]
  exact exec_push s hr

/-- Settles O21: `exec_pop`, with `incSp`, `setReg` and `advance` written out. -/
theorem popLoadsTheTopOfTheStack : Obligations.PopLoadsTheTopOfTheStack :=
  fun _ hr s => exec_pop s hr

/-- Settles O32: both write register 7 alone, store at the push address, and are no `CMP`, `PRN` or `HALT`. -/
theorem pushCallFrame : Obligations.PushCallFrame := by
  rintro i r s t _ hi hc rfl h
  simp only [List.mem_cons, List.not_mem_nil, or_false] at hi
  obtain ⟨hseven, hcmp, hprn, hhalt⟩ : i.writtenRegs = [7] ∧ (∀ a b, i ≠ .cmp a b) ∧ (∀ r, i ≠ .prn r) ∧
      i ≠ .halt := by
    rcases hi with rfl | rfl <;> exact ⟨rfl, nofun, nofun, nofun⟩
  have he : Effect s i t := .of_exec hc h
  have hregs : s.SameRegsBut [7] t := he.sameRegsBut fun j hj => by
    simpa [hseven, Fin.ext_iff] using hj
  exact ⟨hregs, exec_fl_eq hcmp h, exec_sameMemoryBut h, he.out_eq hprn, he.status_eq hhalt, he.fault_eq⟩

/-- Settles O33: both complete, and write the registers listed and `pc` only. -/
theorem popRetFrame : Obligations.PopRetFrame := by
  refine ⟨fun r hr s t h => ?pop, fun s t h => ?ret⟩
  case pop =>
    have he : Effect s (.pop r) t := .of_exec_of_not_call (wellFormed_one.2 hr) nofun h
    exact he.load_frame (.inl ⟨r, rfl⟩) fun j hj => by simpa [Instr.writtenRegs, Fin.ext_iff] using hj
  case ret =>
    have he : Effect s .ret t := .of_exec_of_not_call rfl nofun h
    exact he.load_frame (.inr rfl) fun j hj => by simpa [Instr.writtenRegs, Fin.ext_iff] using hj

/-- Settles O39: the `POP` takes the byte the `PUSH` left at `sp`, and its increment undoes the decrement. -/
theorem pushThenPopTransfersTheValue : Obligations.PushThenPopTransfersTheValue := by
  intro r q hr hq s hm
  obtain ⟨t, hpush, htsp, hstored, hkept⟩ := exists_exec_push hr hm
  refine ⟨t, hpush, htsp, hstored, hkept, fun u husp hcell => ?_⟩
  obtain ⟨w, hpop, htaken, hwsp⟩ := exists_exec_pop u hq
  refine ⟨w, hpop, htaken.trans (hcell.trans hstored), fun h7 => ?_⟩
  calc w.sp = u.sp + 1 := hwsp h7
    _ = s.sp - 1 + 1 := by rw [husp, htsp]
    _ = s.sp := BitVec.sub_add_cancel _ _

end Sys2Proof.Machine

/-! # The call and return family

What a `CALL` leaves at the new `sp`, where a `RET` goes from a given `sp`, and the statements about the two. -/

namespace Sys2Proof.Machine

variable {s : State} {r : Byte}

/-! ### The return address stored and taken -/

/-- A completing `CALL` leaves at the new `sp` the address of the next instruction, which a byte holds (R111). -/
theorem exists_exec_call (hr : r.toNat < 8) (hm : s.mem.wf) (hpc : s.pc.toNat ≤ 253) :
    ∃ t, exec (.call r) s = .next t ∧ t.sp = s.sp - 1 ∧ (t.mem.read t.sp.toNat).toNat = s.pc.toNat + 2 := by
  refine ⟨_, exec_call s hr (by omega), s.decSp_sp, ?_⟩
  calc _ = (BitVec.ofNat 8 (s.pc.toNat + 2)).toNat := congrArg BitVec.toNat (State.read_pushed hm _)
    _ = s.pc.toNat + 2 := (BitVec.toNat_ofNat _ _).trans (Nat.mod_eq_of_lt (by omega))

/-- A `RET` goes to the byte at `sp`, whatever it is, and leaves `sp` one higher (R112). -/
theorem exists_exec_ret {sp : Byte} (hsp : s.sp = sp) :
    ∃ t, exec .ret s = .next t ∧ t.pc.toNat = (s.mem.read sp.toNat).toNat ∧ t.sp = sp + 1 := by
  subst hsp
  exact ⟨_, exec_ret s, target_toNat _, s.incSp_sp⟩

/-! ### The statements of the call and return family -/

/-- Settles O22: `exec_call`, with the target read after the decrement and the cell's address written out. -/
theorem callPushesTheReturnAddressAndJumps : Obligations.CallPushesTheReturnAddressAndJumps := by
  intro r hr s hpc
  rw [← s.decSp_reg_operand hr, ← s.pushAddress_eq]
  exact exec_call s hr (by omega)

/-- Settles O24: byte `11` is the opcode of `RET`, which has no operand byte to fetch; where it goes is the byte at
`sp`, after a `PUSH` the one the `PUSH` left there. -/
theorem retPopsTheProgramCounter : Obligations.RetPopsTheProgramCounter := by
  refine ⟨rfl, exec_ret, fun s hr hpc hbyte => ?step, fun m => exists_exec_ret rfl, fun s hsp => exists_exec_ret hsp,
    fun r hr s hm => ?afterPush⟩
  case step =>
    have hop : opcodeMap (s.mem.read s.pc.toNat) = some (.z .ret) := by rw [hbyte]; rfl
    obtain ⟨t, hret, htpc, htsp⟩ := exists_exec_ret (s := s) rfl
    have hle : t.pc.toNat ≤ 255 := htpc ▸ Nat.le_of_lt_succ (BitVec.isLt _)
    exact ⟨t, (step_of_formatZ hr hpc hop).trans hret, htpc, hle, htsp⟩
  case afterPush =>
    obtain ⟨t, hpush, -, hstored, -⟩ := exists_exec_push hr hm
    obtain ⟨u, hret, hupc, -⟩ := exists_exec_ret (s := t) rfl
    exact ⟨t, u, hpush, hret, hupc.trans (congrArg BitVec.toNat hstored)⟩

/-- Settles O40: the `RET` takes the address the `CALL` left at `sp`, and its increment undoes the decrement. -/
theorem retReturnsToTheInstructionAfterTheCall : Obligations.RetReturnsToTheInstructionAfterTheCall := by
  intro r s hr hm hpc
  obtain ⟨t, hcall, htsp, hstored⟩ := exists_exec_call hr hm hpc
  refine ⟨t, hcall, fun u husp hcell => ?_⟩
  obtain ⟨w, hret, hwpc, hwsp⟩ := exists_exec_ret (s := u) rfl
  refine ⟨w, hret, ?_, ?_⟩
  · calc w.pc.toNat = (u.mem.read u.sp.toNat).toNat := hwpc
      _ = (t.mem.read t.sp.toNat).toNat := congrArg BitVec.toNat hcell
      _ = s.pc.toNat + 2 := hstored
  · calc w.sp = u.sp + 1 := hwsp
      _ = s.sp - 1 + 1 := by rw [husp, htsp]
      _ = s.sp := BitVec.sub_add_cancel _ _

/-- Settles O23: `exec_call_of_gt`, with the fault taken written out. -/
theorem callWithoutAReturnAddressRaises : Obligations.CallWithoutAReturnAddressRaises :=
  fun _ _ hr hpc => exec_call_of_gt hr (by omega)

end Sys2Proof.Machine

/-! # The family of the jumps

What the effect of a jump is as a whole, where an instruction goes under other flags with the same E, and the statements
about `JMP`, `JEQ` and `JNE`. -/

namespace Sys2Proof.Machine

variable {s t : State} {i : Instr}

/-! ### The effect of a jump and the flags it depends on -/

/-- A jump, taken or not, changes nothing but `pc` (R121 to R123). -/
theorem Effect.exists_eq_setPc_of_jump {r : Byte} (hi : i ∈ [.jmp r, .jeq r, .jne r]) (he : Effect s i t) :
    ∃ n, t = s.setPc n := by
  cases he with
  | jmp | jeqTaken | jeqPassed | jneTaken | jnePassed => exact ⟨_, rfl⟩
  | ldi | prn | halt | mul | add | cmp | push | pop | call | ret => simp at hi

/-- Under other flags with the same E an instruction ends at the same `pc`: `CMP` overwrites them, the others carry them
along (R18, R120). -/
theorem Effect.exists_pc_eq_with_fl {f : Flags} (hE : f.E = s.fl.E) (he : Effect s i t) :
    ∃ t', Effect { s with fl := f } i t' ∧ t'.pc = t.pc := by
  by_cases hcmp : ∃ a b, i = .cmp a b
  · obtain ⟨a, b, rfl⟩ := hcmp
    cases he with
    | cmp a b ha hb => exact ⟨_, .cmp a b ha hb, rfl⟩
  · exact ⟨_, he.with_fl (fun a b e => hcmp ⟨a, b, e⟩) fun _ _ => hE, rfl⟩

/-! ### The statements of the jumps' family -/

/-- Settles O25: the jumps' effects, taken and passed; under flags with the same E an instruction completes at the same
`pc` or takes the same fault. -/
theorem jumpsGoToTheRegisterAndTestOnlyE : Obligations.JumpsGoToTheRegisterAndTestOnlyE := by
  refine ⟨fun r hr s => ⟨exec_jmp s hr, fun hE => (Effect.jeqTaken r hr hE).exec_eq,
    fun hE => (Effect.jeqPassed r hr hE).exec_eq, fun hE => (Effect.jneTaken r hr hE).exec_eq,
    fun hE => (Effect.jnePassed r hr hE).exec_eq⟩, fun i s t f hE h => ?flags⟩
  case flags =>
    rcases exec_cases h with he | ⟨-, n, rfl, hn⟩
    · exact (he.exists_pc_eq_with_fl hE).imp fun _ ⟨he', hpc⟩ => ⟨he'.exec_eq, hpc⟩
    · exact ⟨_, hn { s with fl := f } rfl, rfl⟩

/-- Settles O31: a well-formed jump completes, and its effect is a new `pc`. -/
theorem jumpFrame : Obligations.JumpFrame := by
  intro i r s t hi hw h
  have he : Effect s i t := .of_exec_of_not_call hw (by rintro _ rfl; simp at hi) h
  obtain ⟨n, rfl⟩ := he.exists_eq_setPc_of_jump hi
  exact ⟨fun j _ => s.setPc_reg n j, s.setPc_fl n, fun _ => rfl, s.setPc_out n, s.setPc_status n, s.setPc_fault n⟩

end Sys2Proof.Machine

/-! # The family of the faults and the host

Which steps end FAULTED, what *run* and *load* keep, and what *inspect* answers. -/

namespace Sys2Proof.Machine

variable {s t : State}

/-! ### Steps that end FAULTED -/

/-- An instruction that completes leaves a RUNNING machine RUNNING or HALTED (R82, R155). -/
theorem Effect.status_ne_faulted {i : Instr} (h : Effect s i t) (hr : s.status = .running) : t.status ≠ .faulted := by
  rcases h.status_cases with ht | ⟨-, ht⟩
  · simp [ht, hr]
  · simp [ht]

/-- A step ends FAULTED only by taking a fault from the state it began with (R155). -/
theorem exists_eq_raise_of_step_faulted (h : step s = .next t) (ht : t.status = .faulted) : ∃ f, t = s.raise f := by
  obtain ⟨hr, ⟨i, -, he⟩ | ⟨f, -, rfl⟩⟩ := step_cases h
  · exact absurd ht (he.status_ne_faulted hr)
  · exact ⟨f, rfl⟩

/-! ### What the host's transactions keep -/

/-- The invariant speaks of memory only by its canonical form. -/
theorem State.Inv.setMem (hs : s.Inv) {m : Memory} (hm : m.wf) : (s.setMem m).Inv :=
  { hs with mem_wf := hm }

/-- An IDLE machine has no fault recorded, so RUNNING is as consistent a status for it (R23, R70). -/
theorem State.Inv.start (hs : s.Inv) (hidle : s.status = .idle) : s.start.Inv :=
  { hs with fault_iff := hs.fault_iff.trans (by simp [hidle, State.start]) }

theorem State.Inv.hostRun (hs : s.Inv) : s.hostRun.Inv := by
  by_cases hidle : s.status = .idle
  · rw [State.hostRun_of_idle hidle]
    exact hs.start hidle
  · rwa [State.hostRun_of_ne_idle hidle]

theorem State.Inv.hostLoad {bytes : List Byte} (hs : s.Inv) (h : s.hostLoad bytes = .next t) : t.Inv := by
  have hm : t.mem.wf := State.hostLoad_wf hs.mem_wf h
  obtain ⟨-, -, rfl⟩ := State.hostLoad_eq_next h
  exact hs.setMem hm

/-! ### What *inspect* answers -/

theorem State.inspect_of_running (q : Query) (hr : s.status = .running) : s.inspect q = .error .inspectWhileRunning :=
  if_pos hr

section Stopped

variable (hr : s.status ≠ .running) {n : Nat}
include hr

theorem State.inspect_reg_of_lt (h : n < 8) : s.inspect (.reg n) = .ok (.byte (s.reg ⟨n, h⟩)) :=
  (if_neg hr).trans (dif_pos h)

theorem State.inspect_reg_of_ge (h : ¬n < 8) : s.inspect (.reg n) = .error .inspectOutOfRange :=
  (if_neg hr).trans (dif_neg h)

theorem State.inspect_mem_of_lt (h : n < Config.memSize) : s.inspect (.mem n) = .ok (.byte (s.mem.read n)) :=
  (if_neg hr).trans (if_pos h)

theorem State.inspect_mem_of_ge (h : ¬n < Config.memSize) : s.inspect (.mem n) = .error .inspectOutOfRange :=
  (if_neg hr).trans (if_neg h)

end Stopped

/-! ### The statements of the family of the faults and the host -/

/-- Settles O10: only `State.raise` leads to FAULTED, and it writes the status and the record alone. -/
theorem faultsArePrecise : Obligations.FaultsArePrecise := by
  intro s t h ht
  obtain ⟨f, rfl⟩ := exists_eq_raise_of_step_faulted h ht
  exact ⟨f.cause, f.info, rfl⟩

/-- Settles O42: the reset state has the invariant, *run* starts only a machine without a fault, and a *load* writes
memory alone. -/
theorem hostTransactionsKeepTheInvariant : Obligations.HostTransactionsKeepTheInvariant :=
  fun _ hs => ⟨resetMeetsTheInvariant, hs.hostRun, fun _ _ h => hs.hostLoad h⟩

/-- Settles O50: RUNNING decides first, then the bound of an index or an address; the other queries have none. -/
theorem inspectReadsTheWholeState : Obligations.InspectReadsTheWholeState := by
  refine ⟨fun s hr => ⟨fun i => ?reg, fun i hi => ?regOut, fun a ha => ?mem, fun a ha => ?memOut,
    if_neg hr, if_neg hr, if_neg hr, if_neg hr, if_neg hr, if_neg hr, if_neg hr⟩,
    fun s q hr => State.inspect_of_running q hr⟩
  case reg => exact State.inspect_reg_of_lt hr i.isLt
  case regOut => exact State.inspect_reg_of_ge hr (not_lt.2 hi)
  case mem => exact State.inspect_mem_of_lt hr (Nat.lt_succ_of_le ha)
  case memOut => exact State.inspect_mem_of_ge hr (not_lt.2 ha)

end Sys2Proof.Machine

/-! # The family of reset and the entry point

A loaded program is what the first fetch reads: the bytes from `pc` on begin with it, and the decoder looks no further
than the instruction they begin with. -/

namespace Sys2Proof

/-- An instruction's bytes decode to it in any longer list that begins with them (R50, R52). -/
theorem decode_of_prefix {bytes bytes' : List Byte} {i : Instr} (h : decode bytes = .ok i) (hp : bytes <+: bytes') :
    decode bytes' = .ok i := by
  obtain ⟨tail, rfl⟩ := hp
  obtain ⟨rest, rfl⟩ := eq_encode_append_of_decode h
  rw [List.append_assoc]
  exact decode_encode_append i (rest ++ tail)

end Sys2Proof

namespace Sys2Proof.Machine

variable {s : State} {bytes : List Byte}

/-- Bytes that the cells from `pc` up hold are the first of those an instruction is read from (R52). -/
theorem State.prefix_bytesAtPc (hend : s.pc.toNat + bytes.length ≤ 256)
    (hcells : ∀ k (hk : k < bytes.length), s.mem.read (s.pc.toNat + k) = bytes[k]) : bytes <+: s.bytesAtPc := by
  have hlen : s.bytesAtPc.length = 256 - s.pc.toNat := by simp [State.bytesAtPc, Config.memSize]
  refine List.prefix_iff_getElem.2 ⟨by omega, fun k hk => ?_⟩
  simp [State.bytesAtPc, hcells k hk]

/-- After reset and a *load* the started machine reads its first instruction from the loaded bytes (R40, R70, R181). -/
theorem State.exists_hostLoad_reset (hlen : bytes.length ≤ 256) :
    ∃ t, State.reset.hostLoad bytes = .next t ∧ t.hostRun.status = .running ∧ t.hostRun.pc = 0 ∧
      bytes <+: t.hostRun.bytesAtPc := by
  have hstopped : State.reset.status ≠ .running := by decide
  obtain ⟨t, hload, ht, hcells, -⟩ := loadWritesTheProgramFromAddressZero.1 _ bytes hstopped hlen State.reset_mem_wf
  have hrun : t.hostRun = t.start := State.hostRun_of_idle (by rw [ht]; rfl)
  have hpc : t.pc = 0 := by rw [ht]; rfl
  refine ⟨t, hload, ?_⟩
  rw [hrun]
  refine ⟨rfl, hpc, State.prefix_bytesAtPc ?_ fun k hk => ?_⟩
  · simpa [hpc] using hlen
  · simpa [hpc] using hcells k hk

/-- Settles O47: the loaded bytes stand at address 0, where reset puts `pc`, so what they decode to is what the first
step executes. -/
theorem firstLoadedByteIsTheFirstOpcode : Obligations.FirstLoadedByteIsTheFirstOpcode := by
  intro s b bs hlen
  obtain ⟨t, hload, hr, hpc, hp⟩ := State.exists_hostLoad_reset (bytes := b :: bs) (Nat.succ_le_succ hlen)
  refine ⟨rfl, t, hload, hpc, ?_, fun i hd => step_of_decode hr (decode_of_prefix hd hp)⟩
  obtain ⟨rest, hrest⟩ := hp
  rw [← hrest]
  rfl

end Sys2Proof.Machine

/-! # The byte vectors and the reset values

The vectors of V-ENC are encodings and bytes in no row of the opcode map; the registers after reset are `RESET_REG`, but
for `sp`. -/

namespace Sys2Proof

/-- An instruction's bytes decode to it when nothing follows them (R50, R52). -/
theorem decode_encode (i : Instr) : decode (encode i) = .ok i := by
  simpa using decode_encode_append i []

/-- Bytes that begin with one in no row of the opcode map are unrecognized (R57). -/
theorem decode_of_unlisted {b : Byte} (bs : List Byte) (hb : b ∉ opcodeTable.map Prod.fst) :
    decode (b :: bs) = .error (.unrecognized b) :=
  decodeFrom_of_unknown rfl (opcodeMap_eq_none_iff.2 hb)

end Sys2Proof

namespace Sys2Proof.Machine

/-- The registers after reset: `SP_RESET` in `sp`, `RESET_REG` in the others (R26, decision D3). -/
theorem State.reset_reg (j : RegIndex) :
    State.reset.reg j = if j = Config.spIndex then Config.spReset else Config.resetReg := by
  fin_cases j <;> rfl

/-- Settles O1: each accepted vector is the encoding of its instruction, and each rejected one begins with a byte in no
row of the opcode map. -/
theorem specByteVectorsDecode : Obligations.SpecByteVectorsDecode :=
  ⟨decode_encode (.ldi 0 8), decode_encode (.ldi 7 255), decode_encode (.prn 3), decode_encode .halt,
    decode_encode (.mul 0 1), decode_encode (.add 2 2), decode_encode (.cmp 5 6), decode_encode (.push 0),
    decode_encode (.pop 1), decode_encode (.call 1), decode_encode .ret, decode_encode (.jmp 4),
    decode_encode (.jeq 3), decode_encode (.jne 3),
    decode_of_unlisted [] (by decide), decode_of_unlisted [] (by decide), decode_of_unlisted [0x00, 0x00] (by decide),
    decode_of_unlisted [0x00, 0x01] (by decide), decode_of_unlisted [] (by decide)⟩

/-- Settles O46: a register other than `sp` holds `RESET_REG`, and a memory that lists no cell reads as `RESET_MEM`
everywhere. -/
theorem resetLeavesTheChosenValues : Obligations.ResetLeavesTheChosenValues :=
  fun _ => ⟨fun j hj => (State.reset_reg j).trans (if_neg hj), Memory.read_nil, rfl, rfl, rfl⟩

end Sys2Proof.Machine
